-- ==== Sys2Proof/Word.lean ====
section
/-! DEFINITION. The word types of the machine (spec/00_scope.md R6, R11) and the exact time an iteration takes. -/

namespace Sys2Proof

/-- An 8-bit unsigned value: a general register, a timer, a byte of memory. -/
abbrev Byte := BitVec 8

/-- A 16-bit unsigned value: an instruction word, `pc`, `I`, a call-stack entry. -/
abbrev Word := BitVec 16

/-- A 4-bit field of an instruction word (30_encoding.md R71). -/
abbrev Nibble := BitVec 4

/-- The 12-bit immediate `nnn` (30_encoding.md R71). -/
abbrev Addr12 := BitVec 12

/-- A general register number, 0 to 15 (10_state.md R20). -/
abbrev Reg := Fin 16

/-- A sprite row count, 0 to 15 (30_encoding.md R73). -/
abbrev Count := Fin 16

/-- VF, the flag register (10_state.md R21). -/
abbrev vF : Reg := 15

/-- The elapsed time `dt` of one iteration: the non-negative rational `num / den` seconds (10_state.md R47).
Every non-negative rational is one of these; `den = 0` reads as 0 seconds, so that every value is legal. -/
structure Elapsed where
  num : Nat
  den : Nat
deriving DecidableEq, Repr, Inhabited

/-- The time an `Elapsed` stands for, in seconds. -/
def Elapsed.seconds (e : Elapsed) : Rat := mkRat e.num e.den

end Sys2Proof
end

