-- ==== Sys2Proof/Syntax.lean ====
section
/-! DEFINITION. The instructions: one constructor per row of spec/opcode_table.json, in its order. Fields an operation ignores
(the low nibble of 5xy_ and 9xy_, the y of 8xy6 and 8xyE) are kept, so that no bit of a word is lost. -/

namespace Sys2Proof

inductive Instr where
  /-- 0000: the zero word (40_flow.md R90). -/
  | nop0
  /-- 00E0: clear the display (44_display.md R150). -/
  | cls
  /-- 00EE: return from subroutine (40_flow.md R91). -/
  | ret
  /-- 0nnn, but for the three words above: logged no-op (40_flow.md R92). -/
  | sys (nnn : Addr12)
  /-- 1nnn: jump (40_flow.md R93). -/
  | jp (nnn : Addr12)
  /-- 2nnn: call subroutine (40_flow.md R94). -/
  | call (nnn : Addr12)
  /-- 3xkk: skip if Vx = kk (41_skips.md R100). -/
  | seImm (x : Reg) (kk : Byte)
  /-- 4xkk: skip if Vx differs from kk (41_skips.md R101). -/
  | sneImm (x : Reg) (kk : Byte)
  /-- 5xy_: skip if Vx = Vy; the low nibble is ignored (41_skips.md R102, 30_encoding.md R76). -/
  | seReg (x y : Reg) (low : Nibble)
  /-- 6xkk: Vx = kk (42_alu.md R110). -/
  | ldImm (x : Reg) (kk : Byte)
  /-- 7xkk: Vx += kk, no flag (42_alu.md R111). -/
  | addImm (x : Reg) (kk : Byte)
  /-- 8xy0: Vx = Vy (42_alu.md R113). -/
  | ldReg (x y : Reg)
  /-- 8xy1: Vx = Vx or Vy (42_alu.md R114). -/
  | orReg (x y : Reg)
  /-- 8xy2: Vx = Vx and Vy (42_alu.md R115). -/
  | andReg (x y : Reg)
  /-- 8xy3: Vx = Vx xor Vy (42_alu.md R116). -/
  | xorReg (x y : Reg)
  /-- 8xy4: Vx += Vy, VF = carry (42_alu.md R117). -/
  | addReg (x y : Reg)
  /-- 8xy5: Vx -= Vy, VF = not borrow (42_alu.md R118). -/
  | sub (x y : Reg)
  /-- 8xy6: Vx >>= 1, VF = old bit 0; y is ignored (42_alu.md R120). -/
  | shr (x y : Reg)
  /-- 8xy7: Vx = Vy - Vx, VF = not borrow (42_alu.md R119). -/
  | subn (x y : Reg)
  /-- 8xyE: Vx <<= 1, VF = old bit 7; y is ignored (42_alu.md R122). -/
  | shl (x y : Reg)
  /-- 9xy_: skip if Vx differs from Vy; the low nibble is ignored (41_skips.md R103, 30_encoding.md R76). -/
  | sneReg (x y : Reg) (low : Nibble)
  /-- Annn: I = nnn (43_index_memory.md R130). -/
  | ldI (nnn : Addr12)
  /-- Bnnn: pc = V0 + nnn (40_flow.md R95). -/
  | jpV0 (nnn : Addr12)
  /-- Cxkk: Vx = random byte and kk (42_alu.md R124). -/
  | rnd (x : Reg) (kk : Byte)
  /-- Dxyn: draw n sprite rows from I at (Vx, Vy), VF = collision (44_display.md R151). -/
  | drw (x y : Reg) (n : Count)
  /-- Ex9E: skip if key Vx is pressed (45_keys_timers.md R161). -/
  | skp (x : Reg)
  /-- ExA1: skip if key Vx is not pressed (45_keys_timers.md R162). -/
  | sknp (x : Reg)
  /-- Fx07: Vx = DT (45_keys_timers.md R163). -/
  | ldVxDt (x : Reg)
  /-- Fx0A: wait for a key (45_keys_timers.md R166). -/
  | ldVxK (x : Reg)
  /-- Fx15: DT = Vx (45_keys_timers.md R164). -/
  | ldDtVx (x : Reg)
  /-- Fx18: ST = Vx (45_keys_timers.md R165). -/
  | ldStVx (x : Reg)
  /-- Fx1E: I += Vx (43_index_memory.md R131). -/
  | addI (x : Reg)
  /-- Fx29: I = address of glyph Vx (43_index_memory.md R132). -/
  | ldF (x : Reg)
  /-- Fx33: store the decimal digits of Vx at I (43_index_memory.md R133). -/
  | ldB (x : Reg)
  /-- Fx55: store V0 to Vx at I (43_index_memory.md R134). -/
  | ldMemVx (x : Reg)
  /-- Fx65: load V0 to Vx from I (43_index_memory.md R135). -/
  | ldVxMem (x : Reg)
  /-- any other word: logged no-op (40_flow.md R96, 30_encoding.md R80). -/
  | unknown (w : Word)
deriving DecidableEq, Repr

end Sys2Proof
end

