-- ==== Sys2Proof/WellFormed.lean ====
section
/-! DEFINITION. Which instruction terms stand for a word of the machine: the operand types already bound every field
(30_encoding.md R73), so only the two constructors that take "every other word" have a check. -/

namespace Sys2Proof

/-- The words that match no instruction: in group 8 the low nibbles 8 to D and F, in group E every low byte but 9E and A1, in
group F every low byte but the nine listed (30_encoding.md R80). -/
def isUnknownWord (w : Word) : Bool :=
  (w &&& 0xF000#16 == 0x8000#16 &&
    [0x8#16, 0x9#16, 0xA#16, 0xB#16, 0xC#16, 0xD#16, 0xF#16].contains (w &&& 0x000F#16)) ||
  (w &&& 0xF000#16 == 0xE000#16 && !([0x9E#16, 0xA1#16].contains (w &&& 0x00FF#16))) ||
  (w &&& 0xF000#16 == 0xF000#16 &&
    !([0x07#16, 0x0A#16, 0x15#16, 0x18#16, 0x1E#16, 0x29#16, 0x33#16, 0x55#16, 0x65#16].contains (w &&& 0x00FF#16)))

/-- The `nnn` that `SYS` cannot have, because 0x0000, 0x00E0 and 0x00EE are other instructions (30_encoding.md R75). -/
def isReservedSys (nnn : Addr12) : Bool := [0x000#12, 0x0E0#12, 0x0EE#12].contains nnn

/-- A term is well formed when some word of the machine is that instruction. -/
def Instr.wf : Instr → Bool
  | .sys nnn => !isReservedSys nnn
  | .unknown w => isUnknownWord w
  | .nop0 | .cls | .ret => true
  | .jp _ | .call _ | .ldI _ | .jpV0 _ => true
  | .seImm _ _ | .sneImm _ _ | .ldImm _ _ | .addImm _ _ | .rnd _ _ => true
  | .seReg _ _ _ | .sneReg _ _ _ | .drw _ _ _ => true
  | .ldReg _ _ | .orReg _ _ | .andReg _ _ | .xorReg _ _ | .addReg _ _ | .sub _ _ | .shr _ _ | .subn _ _ | .shl _ _ => true
  | .skp _ | .sknp _ | .ldVxDt _ | .ldVxK _ | .ldDtVx _ | .ldStVx _ => true
  | .addI _ | .ldF _ | .ldB _ | .ldMemVx _ | .ldVxMem _ => true

end Sys2Proof
end

