-- ==== Sys2Proof/Decode.lean ====
section
/-! DEFINITION. The decoder (30_encoding.md R70 to R80), total on every word and on every list of bytes; after it the encoder,
written from the same table (R77), and the table itself as data. -/

namespace Sys2Proof

/-! ## Fields (30_encoding.md R71) -/

/-- `op[15:12]`, the type nibble. -/
def typeNibble (w : Word) : Nibble := w.extractLsb' 12 4

/-- `x` = `op[11:8]`, a register number. -/
def fieldX (w : Word) : Reg := (w.extractLsb' 8 4).toFin

/-- `y` = `op[7:4]`, a register number. -/
def fieldY (w : Word) : Reg := (w.extractLsb' 4 4).toFin

/-- `n` = `op[3:0]`. -/
def fieldN (w : Word) : Nibble := w.extractLsb' 0 4

/-- `kk` = `op[7:0]`. -/
def fieldKK (w : Word) : Byte := w.extractLsb' 0 8

/-- `nnn` = `op[11:0]`. -/
def fieldNNN (w : Word) : Addr12 := w.extractLsb' 0 12

/-! ## Decoding (30_encoding.md R74, R75) -/

/-- Group 0: the whole word selects (R75). -/
def decodeGroup0 (w : Word) : Instr :=
  if w = 0x0000#16 then .nop0
  else if w = 0x00E0#16 then .cls
  else if w = 0x00EE#16 then .ret
  else .sys (fieldNNN w)

/-- Group 8: the low nibble selects (R75). -/
def decodeGroup8 (w : Word) : Instr :=
  match (fieldN w).toNat with
  | 0x0 => .ldReg (fieldX w) (fieldY w)
  | 0x1 => .orReg (fieldX w) (fieldY w)
  | 0x2 => .andReg (fieldX w) (fieldY w)
  | 0x3 => .xorReg (fieldX w) (fieldY w)
  | 0x4 => .addReg (fieldX w) (fieldY w)
  | 0x5 => .sub (fieldX w) (fieldY w)
  | 0x6 => .shr (fieldX w) (fieldY w)
  | 0x7 => .subn (fieldX w) (fieldY w)
  | 0xE => .shl (fieldX w) (fieldY w)
  | _ => .unknown w

/-- Group E: the low byte selects (R75). -/
def decodeGroupE (w : Word) : Instr :=
  match (fieldKK w).toNat with
  | 0x9E => .skp (fieldX w)
  | 0xA1 => .sknp (fieldX w)
  | _ => .unknown w

/-- Group F: the low byte selects (R75). -/
def decodeGroupF (w : Word) : Instr :=
  match (fieldKK w).toNat with
  | 0x07 => .ldVxDt (fieldX w)
  | 0x0A => .ldVxK (fieldX w)
  | 0x15 => .ldDtVx (fieldX w)
  | 0x18 => .ldStVx (fieldX w)
  | 0x1E => .addI (fieldX w)
  | 0x29 => .ldF (fieldX w)
  | 0x33 => .ldB (fieldX w)
  | 0x55 => .ldMemVx (fieldX w)
  | 0x65 => .ldVxMem (fieldX w)
  | _ => .unknown w

/-- The instruction a word is: the type nibble selects the group, and groups 0, 8, E and F look further (R74). Total: a word
that matches no row is UNKNOWN, an instruction with an effect of its own (R80). -/
def decode (w : Word) : Instr :=
  match (typeNibble w).toNat with
  | 0x0 => decodeGroup0 w
  | 0x1 => .jp (fieldNNN w)
  | 0x2 => .call (fieldNNN w)
  | 0x3 => .seImm (fieldX w) (fieldKK w)
  | 0x4 => .sneImm (fieldX w) (fieldKK w)
  | 0x5 => .seReg (fieldX w) (fieldY w) (fieldN w)
  | 0x6 => .ldImm (fieldX w) (fieldKK w)
  | 0x7 => .addImm (fieldX w) (fieldKK w)
  | 0x8 => decodeGroup8 w
  | 0x9 => .sneReg (fieldX w) (fieldY w) (fieldN w)
  | 0xA => .ldI (fieldNNN w)
  | 0xB => .jpV0 (fieldNNN w)
  | 0xC => .rnd (fieldX w) (fieldKK w)
  | 0xD => .drw (fieldX w) (fieldY w) (fieldN w).toFin
  | 0xE => decodeGroupE w
  | _ => decodeGroupF w

/-- The word two consecutive bytes of memory hold, the byte at the lower address first (20_memory.md R51). -/
def wordOfBytes (hi lo : Byte) : Word := hi ++ lo

/-- Why bytes hold no instruction. -/
inductive DecodeError where
  /-- Fewer than two bytes are left: an instruction is exactly two (30_encoding.md R70). -/
  | truncated
deriving DecidableEq, Repr

/-- The first instruction of a list of bytes, and the bytes after it. -/
def decodeBytes : List Byte → Except DecodeError (Instr × List Byte)
  | hi :: lo :: rest => .ok (decode (wordOfBytes hi lo), rest)
  | _ => .error .truncated

/-! ## Encoding (30_encoding.md R72, R77) -/

/-- Four hexadecimal digits, most significant first. -/
def wordOfDigits (t x y n : Nibble) : Word := t ++ x ++ y ++ n

/-- A register number or a count as a digit. -/
def digit (r : Fin 16) : Nibble := BitVec.ofFin r

/-- Formats NNN, XKK, and XY with XYF and XYN (30_encoding.md R72). -/
def encodeNNN (t : Nibble) (nnn : Addr12) : Word := t ++ nnn

def encodeXKK (t : Nibble) (x : Reg) (kk : Byte) : Word := t ++ digit x ++ kk

def encodeXYN (t : Nibble) (x y : Reg) (n : Nibble) : Word := wordOfDigits t (digit x) (digit y) n

/-- The word of a well-formed instruction. -/
def encode : Instr → Word
  | .nop0 => 0x0000#16
  | .cls => 0x00E0#16
  | .ret => 0x00EE#16
  | .sys nnn => encodeNNN 0x0#4 nnn
  | .jp nnn => encodeNNN 0x1#4 nnn
  | .call nnn => encodeNNN 0x2#4 nnn
  | .seImm x kk => encodeXKK 0x3#4 x kk
  | .sneImm x kk => encodeXKK 0x4#4 x kk
  | .seReg x y low => encodeXYN 0x5#4 x y low
  | .ldImm x kk => encodeXKK 0x6#4 x kk
  | .addImm x kk => encodeXKK 0x7#4 x kk
  | .ldReg x y => encodeXYN 0x8#4 x y 0x0#4
  | .orReg x y => encodeXYN 0x8#4 x y 0x1#4
  | .andReg x y => encodeXYN 0x8#4 x y 0x2#4
  | .xorReg x y => encodeXYN 0x8#4 x y 0x3#4
  | .addReg x y => encodeXYN 0x8#4 x y 0x4#4
  | .sub x y => encodeXYN 0x8#4 x y 0x5#4
  | .shr x y => encodeXYN 0x8#4 x y 0x6#4
  | .subn x y => encodeXYN 0x8#4 x y 0x7#4
  | .shl x y => encodeXYN 0x8#4 x y 0xE#4
  | .sneReg x y low => encodeXYN 0x9#4 x y low
  | .ldI nnn => encodeNNN 0xA#4 nnn
  | .jpV0 nnn => encodeNNN 0xB#4 nnn
  | .rnd x kk => encodeXKK 0xC#4 x kk
  | .drw x y n => encodeXYN 0xD#4 x y (digit n)
  | .skp x => encodeXKK 0xE#4 x 0x9E#8
  | .sknp x => encodeXKK 0xE#4 x 0xA1#8
  | .ldVxDt x => encodeXKK 0xF#4 x 0x07#8
  | .ldVxK x => encodeXKK 0xF#4 x 0x0A#8
  | .ldDtVx x => encodeXKK 0xF#4 x 0x15#8
  | .ldStVx x => encodeXKK 0xF#4 x 0x18#8
  | .addI x => encodeXKK 0xF#4 x 0x1E#8
  | .ldF x => encodeXKK 0xF#4 x 0x29#8
  | .ldB x => encodeXKK 0xF#4 x 0x33#8
  | .ldMemVx x => encodeXKK 0xF#4 x 0x55#8
  | .ldVxMem x => encodeXKK 0xF#4 x 0x65#8
  | .unknown w => w

/-! ## The opcode map as data (30_encoding.md R77) -/

/-- A row of the map: a word is the row's instruction when it agrees with `pattern` on the bits of `mask`. -/
structure OpcodeRow where
  mnemonic : String
  pattern : Word
  mask : Word
deriving DecidableEq, Repr

/-- Groups 0 to 7, in the order R77 writes them. -/
def opcodeRowsLow : List OpcodeRow :=
  [⟨"NOP0", 0x0000#16, 0xFFFF#16⟩,
   ⟨"CLS", 0x00E0#16, 0xFFFF#16⟩,
   ⟨"RET", 0x00EE#16, 0xFFFF#16⟩,
   ⟨"SYS", 0x0000#16, 0xF000#16⟩,
   ⟨"JP", 0x1000#16, 0xF000#16⟩,
   ⟨"CALL", 0x2000#16, 0xF000#16⟩,
   ⟨"SE_imm", 0x3000#16, 0xF000#16⟩,
   ⟨"SNE_imm", 0x4000#16, 0xF000#16⟩,
   ⟨"SE_reg", 0x5000#16, 0xF000#16⟩,
   ⟨"LD_imm", 0x6000#16, 0xF000#16⟩,
   ⟨"ADD_imm", 0x7000#16, 0xF000#16⟩]

/-- Groups 8 to D. -/
def opcodeRowsMid : List OpcodeRow :=
  [⟨"LD_reg", 0x8000#16, 0xF00F#16⟩,
   ⟨"OR", 0x8001#16, 0xF00F#16⟩,
   ⟨"AND", 0x8002#16, 0xF00F#16⟩,
   ⟨"XOR", 0x8003#16, 0xF00F#16⟩,
   ⟨"ADD_reg", 0x8004#16, 0xF00F#16⟩,
   ⟨"SUB", 0x8005#16, 0xF00F#16⟩,
   ⟨"SHR", 0x8006#16, 0xF00F#16⟩,
   ⟨"SUBN", 0x8007#16, 0xF00F#16⟩,
   ⟨"SHL", 0x800E#16, 0xF00F#16⟩,
   ⟨"SNE_reg", 0x9000#16, 0xF000#16⟩,
   ⟨"LD_I", 0xA000#16, 0xF000#16⟩,
   ⟨"JP_V0", 0xB000#16, 0xF000#16⟩,
   ⟨"RND", 0xC000#16, 0xF000#16⟩,
   ⟨"DRW", 0xD000#16, 0xF000#16⟩]

/-- Groups E and F, and last the class of every word no row above matches (its mask is empty). -/
def opcodeRowsHigh : List OpcodeRow :=
  [⟨"SKP", 0xE09E#16, 0xF0FF#16⟩,
   ⟨"SKNP", 0xE0A1#16, 0xF0FF#16⟩,
   ⟨"LD_Vx_DT", 0xF007#16, 0xF0FF#16⟩,
   ⟨"LD_Vx_K", 0xF00A#16, 0xF0FF#16⟩,
   ⟨"LD_DT_Vx", 0xF015#16, 0xF0FF#16⟩,
   ⟨"LD_ST_Vx", 0xF018#16, 0xF0FF#16⟩,
   ⟨"ADD_I", 0xF01E#16, 0xF0FF#16⟩,
   ⟨"LD_F", 0xF029#16, 0xF0FF#16⟩,
   ⟨"LD_B", 0xF033#16, 0xF0FF#16⟩,
   ⟨"LD_mem_Vx", 0xF055#16, 0xF0FF#16⟩,
   ⟨"LD_Vx_mem", 0xF065#16, 0xF0FF#16⟩,
   ⟨"UNKNOWN", 0x0000#16, 0x0000#16⟩]

/-- The rows in the order of R77; the first that matches a word is its row. -/
def opcodeMap : List OpcodeRow := opcodeRowsLow ++ opcodeRowsMid ++ opcodeRowsHigh

/-- Whether a word is an instance of the row. -/
def OpcodeRow.covers (r : OpcodeRow) (w : Word) : Bool := w &&& r.mask == r.pattern

/-- The mnemonic of the first row that covers a word. -/
def rowMnemonic (w : Word) : Option String := (opcodeMap.find? (·.covers w)).map OpcodeRow.mnemonic

/-- The row an instruction is, by its mnemonic in spec/opcode_table.json. -/
def Instr.mnemonic : Instr → String
  | .nop0 => "NOP0"
  | .cls => "CLS"
  | .ret => "RET"
  | .sys _ => "SYS"
  | .jp _ => "JP"
  | .call _ => "CALL"
  | .seImm _ _ => "SE_imm"
  | .sneImm _ _ => "SNE_imm"
  | .seReg _ _ _ => "SE_reg"
  | .ldImm _ _ => "LD_imm"
  | .addImm _ _ => "ADD_imm"
  | .ldReg _ _ => "LD_reg"
  | .orReg _ _ => "OR"
  | .andReg _ _ => "AND"
  | .xorReg _ _ => "XOR"
  | .addReg _ _ => "ADD_reg"
  | .sub _ _ => "SUB"
  | .shr _ _ => "SHR"
  | .subn _ _ => "SUBN"
  | .shl _ _ => "SHL"
  | .sneReg _ _ _ => "SNE_reg"
  | .ldI _ => "LD_I"
  | .jpV0 _ => "JP_V0"
  | .rnd _ _ => "RND"
  | .drw _ _ _ => "DRW"
  | .skp _ => "SKP"
  | .sknp _ => "SKNP"
  | .ldVxDt _ => "LD_Vx_DT"
  | .ldVxK _ => "LD_Vx_K"
  | .ldDtVx _ => "LD_DT_Vx"
  | .ldStVx _ => "LD_ST_Vx"
  | .addI _ => "ADD_I"
  | .ldF _ => "LD_F"
  | .ldB _ => "LD_B"
  | .ldMemVx _ => "LD_mem_Vx"
  | .ldVxMem _ => "LD_Vx_mem"
  | .unknown _ => "UNKNOWN"

/-- The first digit of an instruction's pattern in R77. -/
def Instr.typeDigit : Instr → Nibble
  | .nop0 => 0x0#4
  | .cls => 0x0#4
  | .ret => 0x0#4
  | .sys _ => 0x0#4
  | .jp _ => 0x1#4
  | .call _ => 0x2#4
  | .seImm _ _ => 0x3#4
  | .sneImm _ _ => 0x4#4
  | .seReg _ _ _ => 0x5#4
  | .ldImm _ _ => 0x6#4
  | .addImm _ _ => 0x7#4
  | .ldReg _ _ => 0x8#4
  | .orReg _ _ => 0x8#4
  | .andReg _ _ => 0x8#4
  | .xorReg _ _ => 0x8#4
  | .addReg _ _ => 0x8#4
  | .sub _ _ => 0x8#4
  | .shr _ _ => 0x8#4
  | .subn _ _ => 0x8#4
  | .shl _ _ => 0x8#4
  | .sneReg _ _ _ => 0x9#4
  | .ldI _ => 0xA#4
  | .jpV0 _ => 0xB#4
  | .rnd _ _ => 0xC#4
  | .drw _ _ _ => 0xD#4
  | .skp _ => 0xE#4
  | .sknp _ => 0xE#4
  | .ldVxDt _ => 0xF#4
  | .ldVxK _ => 0xF#4
  | .ldDtVx _ => 0xF#4
  | .ldStVx _ => 0xF#4
  | .addI _ => 0xF#4
  | .ldF _ => 0xF#4
  | .ldB _ => 0xF#4
  | .ldMemVx _ => 0xF#4
  | .ldVxMem _ => 0xF#4
  | .unknown w => typeNibble w

/-! ## The host's numbering of a table word (bit 0 is the least significant bit of the first word) -/

/-- The instruction word of an opcode-table row: its bits above `nbits` are 0, and an instruction is the first 16 bits. -/
def tableWord (nbits w : Nat) : Word := BitVec.ofNat 16 (w % 2 ^ nbits)

/-- The two bytes of a word as memory holds them, high byte first (20_memory.md R51). -/
def bytesOfWord (w : Word) : Byte × Byte := (w.extractLsb' 8 8, w.extractLsb' 0 8)

/-- The instruction the decoder reads from a table word laid out as the hardware stores it. -/
def decodeTableWord (nbits w : Nat) : Option Instr :=
  match decodeBytes [(bytesOfWord (tableWord nbits w)).1, (bytesOfWord (tableWord nbits w)).2] with
  | .ok (i, _) => some i
  | .error _ => none

end Sys2Proof
end

