-- ==== Sys2Proof/Config.lean ====
section
/-! DEFINITION. What an implementation fixes (spec/00_scope.md R6 to R9) and the free values: the inputs of the block, which
no rule constrains (10_state.md R40 to R47). -/

namespace Sys2Proof.Config

/-- MEM_SIZE: addresses 0x000 to 0xFFF exist and nothing else (00_scope.md R6, 20_memory.md R50). -/
abbrev memSize : Nat := 4096

/-- FONT_BASE (00_scope.md R6). -/
abbrev fontBase : Nat := 0x050

/-- The font is 16 glyphs of 5 bytes (00_scope.md R6). -/
abbrev fontSize : Nat := 80

/-- PROG_BASE: where `load` puts a program, and the entry point (00_scope.md R6, 20_memory.md R59). -/
abbrev progBase : Nat := 0x200

/-- PROG_MAX: the longest program `load` accepts (00_scope.md R6, 20_memory.md R60). -/
abbrev progMax : Nat := 3584

/-- DISP_W (00_scope.md R6). -/
abbrev dispW : Nat := 64

/-- DISP_H (00_scope.md R6). -/
abbrev dispH : Nat := 32

/-- The default of the parameter RATE, in instructions per second (00_scope.md R8). -/
abbrev defaultRate : Nat := 500

/-- FREE VALUE. What the backend answers to the `n`-th `poll` (10_state.md R41): true is "continue". Log 2. -/
opaque pollAnswer : Nat → Bool

/-- FREE VALUE. The elapsed time the host supplies at the `n`-th iteration (10_state.md R47). Log 2. -/
opaque elapsed : Nat → Elapsed

/-- FREE VALUE. The `n`-th sample of `keys_in`, bit k = key k pressed (10_state.md R42). Log 2. -/
opaque keySample : Nat → BitVec 16

/-- FREE VALUE. The `n`-th random byte (10_state.md R44, 42_alu.md R124). Log 2. -/
opaque randByte : Nat → Byte

end Sys2Proof.Config
end

