-- ==== Sys2Proof/Machine/State.lean ====
section
/-! DEFINITION. The state of the machine (spec/10_state.md R20 to R37) as plain data, the reasons a step stops, and the state
after reset (R39, 70_reset_and_hazards.md R210). -/

namespace Sys2Proof.Machine

/-- The faults of 60_exceptions.md R177, with the information R177 records; `a` is the address the instruction was fetched
from. Each stands where the source calls the behaviour undefined or says nothing, so each is SAFE: the model stops where the
source stops describing. A meaning (or the fetch) raises one; the iteration records it in the register `fault`; a step of a
faulted machine answers with the record (R176). -/
inductive Fault where
  /-- Code 1, raised by the fetch of `cpuTick` when `pc` is 4095 or more (20_memory.md R53). Safe. -/
  | fetchRange (pc : Word)
  /-- Code 2, raised by CALL when `sp` is 15 (40_flow.md R94). Safe. -/
  | stackOverflow (a op : Word)
  /-- Code 3, raised by RET when the stack is empty (40_flow.md R91). Safe. -/
  | stackUnderflow (a op : Word)
  /-- Code 4, raised by DRW, LD B, LD [I] and LD Vx, [I] when the highest address of the range is 4096 or more
  (20_memory.md R54, R55); `addr` is that address. Safe. -/
  | memRange (a op : Word) (addr : Nat)
  /-- Code 5, raised by SKP and SKNP when the key code is 16 or more (45_keys_timers.md R161, R162). Safe. -/
  | keyIndex (a op : Word) (k : Byte)
deriving DecidableEq, Repr

/-- The fault code (60_exceptions.md R177). -/
def Fault.code : Fault → Nat
  | .fetchRange _ => 1
  | .stackOverflow _ _ => 2
  | .stackUnderflow _ _ => 3
  | .memRange _ _ _ => 4
  | .keyIndex _ _ _ => 5

/-- The address the faulting instruction was, or would have been, fetched from (10_state.md R37, `pc_at_fetch`). -/
def Fault.pcAtFetch : Fault → Word
  | .fetchRange pc => pc
  | .stackOverflow a _ => a
  | .stackUnderflow a _ => a
  | .memRange a _ _ => a
  | .keyIndex a _ _ => a

/-- The opcode, where one was fetched (10_state.md R37, `opcode_or_none`). -/
def Fault.opcode : Fault → Option Word
  | .fetchRange _ => none
  | .stackOverflow _ op => some op
  | .stackUnderflow _ op => some op
  | .memRange _ op _ => some op
  | .keyIndex _ op _ => some op

/-- Why the model gives a step no meaning. -/
inductive Refusal where
  /-- Raised by exec for an instruction that has no meaning yet; no arm raises it in this model. Safe. -/
  | notModelled (mnemonic : String)
  /-- Raised by `step` when RATE is 0, to which the spec gives no meaning (00_scope.md R8, decision D30). Safe. -/
  | rateNotPositive
  /-- Raised by `step` after the run has ended: `poll` answered 0 and `stop` was emitted (60_exceptions.md R195, R197), and no
  step of the block is left. Safe. -/
  | runEnded
deriving DecidableEq, Repr

/-- The memory: the bytes that differ from the reset contents, by rising address (20_memory.md R50). -/
abbrev Memory := List Host.Cell

/-- The display, rows from the top and columns from the left (10_state.md R32). -/
abbrev Grid := Vector (Vector Bool Config.dispW) Config.dispH

/-- Where the run of 60_exceptions.md R197 stands. The model's own field, log 5. -/
inductive RunPhase where
  /-- After reset: nothing has been loaded and `start` has not been emitted. -/
  | ready
  /-- A program has been loaded and `start` has not been emitted. -/
  | loaded
  /-- Iterations are being run. -/
  | running
  /-- `poll` answered 0: `stop` has been emitted. -/
  | ended
deriving DecidableEq, Repr

/-- What the backend and the host answer in one iteration: to `poll`, and the elapsed time (10_state.md R41, R47). -/
structure Iteration where
  cont : Bool
  dt : Elapsed
deriving DecidableEq, Repr

/-- The input ports (10_state.md R40). A script holds the answers to the coming transactions, the next one first; past its end
the answer is the free value of Config at the number of transactions made so far. The model's own field, log 2. -/
structure Inputs where
  iterations : List Iteration
  keySamples : List (BitVec 16)
  randBytes : List Byte
  iterationsDone : Nat
  samplesDone : Nat
  drawsDone : Nat
deriving DecidableEq, Repr

/-- An output transaction (10_state.md R43, R45, R46, R47). -/
inductive Output where
  | render (frame : Grid)
  | beep
  | diag (op : Word)
  | start
  | stop
deriving DecidableEq, Repr

/-- The state: the spec's registers, arrays and hidden bits, then the model's own fields. -/
structure State where
  /-- V0 to VF (R20). -/
  V : Vector Byte 16
  /-- The index register (R24). -/
  I : Word
  /-- The program counter (R22). -/
  pc : Word
  /-- The call stack's entries (R25). -/
  stack : Vector Word 16
  /-- The stack pointer, none for -1 (R27, log 18). -/
  sp : Option (Fin 16)
  /-- The delay timer (R28). -/
  DT : Byte
  /-- The sound timer (R29). -/
  ST : Byte
  /-- The key snapshot, bit k for key k (R34, R42). -/
  keys : BitVec 16
  /-- The memory (R31). -/
  mem : Memory
  /-- The display (R32). -/
  pix : Grid
  /-- The dirty flag (R33). -/
  dirty : Bool
  /-- The CPU accumulator in seconds (R36). -/
  accCpu : Rat
  /-- The timer accumulator in seconds (R36). -/
  accTimer : Rat
  /-- The fault register (R37). -/
  fault : Option Fault
  /-- RATE, fixed for a run (00_scope.md R8, log 3). -/
  rate : Nat
  /-- Where the run stands (log 5). -/
  phase : RunPhase
  /-- The input ports (log 2). -/
  inputs : Inputs
  /-- The output transactions so far, newest first (log 4). -/
  out : List Output
deriving DecidableEq, Repr

/-- What a meaning, a tick and a step answer. -/
abbrev Result := Host.Outcome State Fault Refusal

/-- A blank display. -/
def blankGrid : Grid := Vector.replicate Config.dispH (Vector.replicate Config.dispW false)

/-- Nothing scripted, nothing drawn. -/
def freeInputs : Inputs :=
  { iterations := [], keySamples := [], randBytes := [], iterationsDone := 0, samplesDone := 0, drawsDone := 0 }

/-- The machine right after reset (10_state.md R39, 70_reset_and_hazards.md R210; logs 8 and 9 for the values the source leaves
open). -/
def State.reset : State where
  V := Vector.replicate 16 0x00#8
  I := 0x0000#16
  pc := 0x0200#16
  stack := Vector.replicate 16 0x0000#16
  sp := none
  DT := 0x00#8
  ST := 0x00#8
  keys := 0x0000#16
  mem := []
  pix := blankGrid
  dirty := false
  accCpu := 0
  accTimer := 0
  fault := none
  rate := Config.defaultRate
  phase := .ready
  inputs := freeInputs
  out := []

end Sys2Proof.Machine
end

