-- ==== Sys2Proof/Machine/Ops.lean ====
section
/-! DEFINITION. The named operations over registers, call stack, memory, ports and time that the meanings share, and what
raising and taking a fault is. -/

namespace Sys2Proof.Machine

/-! ## General registers (10_state.md R20) -/

/-- `V[r]`. -/
def State.reg (s : State) (r : Reg) : Byte := s.V[r.val]

/-- `V[r] <- v`. -/
def State.setReg (s : State) (r : Reg) (v : Byte) : State := { s with V := s.V.set r.val v }

/-- Registers `k`, `k + 1`, ... take the bytes of a list, in order. -/
def writeRegs (V : Vector Byte 16) (k : Nat) : List Byte → Vector Byte 16
  | [] => V
  | b :: bs => writeRegs (V.setIfInBounds k b) (k + 1) bs

/-- V0 to Vx, in order (43_index_memory.md R134). -/
def State.regsUpTo (s : State) (x : Reg) : List Byte := s.V.toList.take (x.val + 1)

/-! ## The single registers -/

/-- `pc <- v`. -/
def State.setPc (s : State) (v : Word) : State := { s with pc := v }

/-- `I <- v`. -/
def State.setI (s : State) (v : Word) : State := { s with I := v }

/-- `DT <- v`. -/
def State.setDT (s : State) (v : Byte) : State := { s with DT := v }

/-- `ST <- v`. -/
def State.setST (s : State) (v : Byte) : State := { s with ST := v }

/-- `mem` as a whole. -/
def State.setMem (s : State) (m : Memory) : State := { s with mem := m }

/-- `pix` as a whole. -/
def State.setPix (s : State) (g : Grid) : State := { s with pix := g }

/-- `dirty <- b`. -/
def State.setDirty (s : State) (b : Bool) : State := { s with dirty := b }

/-- Step over the next instruction: `pc <- pc + 2` (41_skips.md R104). -/
def State.skip (s : State) : State := s.setPc (s.pc + 2#16)

/-- A taken or an untaken skip (41_skips.md R104). -/
def State.skipIf (s : State) (c : Bool) : State := if c then s.skip else s

/-! ## Call stack (10_state.md R25 to R27) -/

/-- `sp` as the integer -1 to 15. -/
def State.spInt (s : State) : Int :=
  match s.sp with
  | none => -1
  | some k => k.val

/-- The entry a push writes: `sp + 1`, none when `sp` is 15. -/
def nextEntry : Option (Fin 16) → Option (Fin 16)
  | none => some 0
  | some k => if h : k.val + 1 < 16 then some ⟨k.val + 1, h⟩ else none

/-- `sp - 1`, from an entry. -/
def entryBelow (k : Fin 16) : Option (Fin 16) := if k.val = 0 then none else some ⟨k.val - 1, by omega⟩

/-- `push(v)` (R26); none where it overflows. -/
def State.push (s : State) (v : Word) : Option State :=
  match nextEntry s.sp with
  | none => none
  | some k => some { s with sp := some k, stack := s.stack.set k.val v }

/-- `pop()` (R26): the entry and the state after it; none where it underflows. The entry is not cleared (40_flow.md R91). -/
def State.pop (s : State) : Option (Word × State) :=
  match s.sp with
  | none => none
  | some k => some (s.stack[k.val], { s with sp := entryBelow k })

/-! ## Memory (20_memory.md R50 to R62) -/

/-- Glyphs 0 to 7 of the font (20_memory.md R58; from general knowledge, log 10). -/
def fontLow : List Byte :=
  [0xF0#8, 0x90#8, 0x90#8, 0x90#8, 0xF0#8,
   0x20#8, 0x60#8, 0x20#8, 0x20#8, 0x70#8,
   0xF0#8, 0x10#8, 0xF0#8, 0x80#8, 0xF0#8,
   0xF0#8, 0x10#8, 0xF0#8, 0x10#8, 0xF0#8,
   0x90#8, 0x90#8, 0xF0#8, 0x10#8, 0x10#8,
   0xF0#8, 0x80#8, 0xF0#8, 0x10#8, 0xF0#8,
   0xF0#8, 0x80#8, 0xF0#8, 0x90#8, 0xF0#8,
   0xF0#8, 0x10#8, 0x20#8, 0x40#8, 0x40#8]

/-- Glyphs 8 to F of the font (20_memory.md R58; log 10). -/
def fontHigh : List Byte :=
  [0xF0#8, 0x90#8, 0xF0#8, 0x90#8, 0xF0#8,
   0xF0#8, 0x90#8, 0xF0#8, 0x10#8, 0xF0#8,
   0xF0#8, 0x90#8, 0xF0#8, 0x90#8, 0x90#8,
   0xE0#8, 0x90#8, 0xE0#8, 0x90#8, 0xE0#8,
   0xF0#8, 0x80#8, 0x80#8, 0x80#8, 0xF0#8,
   0xE0#8, 0x90#8, 0x90#8, 0x90#8, 0xE0#8,
   0xF0#8, 0x80#8, 0xF0#8, 0x80#8, 0xF0#8,
   0xF0#8, 0x80#8, 0xF0#8, 0x80#8, 0x80#8]

/-- The 80 bytes of the font. -/
def fontTable : List Byte := fontLow ++ fontHigh

/-- What an unlisted address reads as: the reset contents, the font at 0x050 to 0x09F and 0x00 elsewhere (10_state.md R31,
20_memory.md R58, R59; logs 9 and 10). -/
def resetByte (a : Nat) : Byte :=
  if Config.fontBase ≤ a then (fontTable[a - Config.fontBase]?).getD 0x00#8 else 0x00#8

/-- The byte at an address. -/
def Memory.read : Memory → Nat → Byte
  | [], a => resetByte a
  | (b, v) :: m, a => if a = b then v else Memory.read m a

/-- One entry in front of a memory, unless it says what an unlisted address reads as. -/
def Memory.entry (a : Nat) (v : Byte) (m : Memory) : Memory := if v = resetByte a then m else (a, v) :: m

/-- The memory with the byte at `a` set to `v`, in canonical form again. -/
def Memory.write : Memory → Nat → Byte → Memory
  | [], a, v => Memory.entry a v []
  | (b, u) :: m, a, v =>
    if a < b then Memory.entry a v ((b, u) :: m)
    else if a = b then Memory.entry a v m
    else (b, u) :: Memory.write m a v

/-- The canonical form: addresses strictly rising and below 4096, no entry equal to the reset contents. -/
abbrev Memory.Wf (m : Memory) : Prop :=
  m.Pairwise (fun c d => c.1 < d.1) ∧ ∀ c ∈ m, c.1 < Config.memSize ∧ c.2 ≠ resetByte c.1

/-- The same as a Bool. -/
def Memory.wf (m : Memory) : Bool := decide (Memory.Wf m)

/-- `n` bytes from `a` upwards, in ascending order (20_memory.md R62). -/
def Memory.readSlice (m : Memory) (a : Nat) : Nat → List Byte
  | 0 => []
  | n + 1 => m.read a :: Memory.readSlice m (a + 1) n

/-- A list of bytes stored from `a` upwards, in ascending order (20_memory.md R62). -/
def Memory.writeSlice (m : Memory) (a : Nat) : List Byte → Memory
  | [] => m
  | v :: vs => Memory.writeSlice (m.write a v) (a + 1) vs

/-- The highest address of the range of `n` bytes at `I`, where it lies at or above 4096: the range check of a data instruction,
made before anything is read or written (20_memory.md R54, R55). The address is an unbounded integer, never wrapped. -/
def State.badAddress (s : State) (n : Nat) : Option Nat :=
  if 0 < n ∧ Config.memSize ≤ s.I.toNat + n - 1 then some (s.I.toNat + n - 1) else none

/-- The `n` bytes at `I`, or the offending address. -/
def State.loadBytes (s : State) (n : Nat) : Except Nat (List Byte) :=
  match s.badAddress n with
  | some addr => .error addr
  | none => .ok (s.mem.readSlice s.I.toNat n)

/-- The state with a list of bytes stored at `I`, or the offending address. -/
def State.storeBytes (s : State) (vs : List Byte) : Except Nat State :=
  match s.badAddress vs.length with
  | some addr => .error addr
  | none => .ok (s.setMem (s.mem.writeSlice s.I.toNat vs))

/-! ## Fetch (20_memory.md R51 to R53) -/

/-- Whether both bytes of the instruction at `pc` exist: `pc + 1 < 4096` (R52). -/
def State.fetchable (s : State) : Bool := s.pc.toNat + 1 < Config.memSize

/-- The word at `pc`, the byte at the lower address in bits 15:8 (R51, R52). -/
def State.fetchWord (s : State) : Word := wordOfBytes (s.mem.read s.pc.toNat) (s.mem.read (s.pc.toNat + 1))

/-- The fetch's `pc <- pc + 2` (R52). -/
def State.advancePc (s : State) : State := s.setPc (s.pc + 2#16)

/-! ## Faults (60_exceptions.md R176, R177) -/

/-- The address the executing instruction was fetched from: `pc` holds it plus 2 (10_state.md R22). -/
def State.fetchedFrom (s : State) : Word := s.pc - 2#16

/-- `raise Fault_MemRange` (R177). -/
def State.raiseMemRange (s : State) (i : Instr) (addr : Nat) : Result := .fault (.memRange s.fetchedFrom (encode i) addr)

/-- `raise Fault_KeyIndex` (R177). -/
def State.raiseKeyIndex (s : State) (i : Instr) (k : Byte) : Result := .fault (.keyIndex s.fetchedFrom (encode i) k)

/-- `raise Fault_StackOverflow` (R177). -/
def State.raiseStackOverflow (s : State) (i : Instr) : Result := .fault (.stackOverflow s.fetchedFrom (encode i))

/-- `raise Fault_StackUnderflow` (R177). -/
def State.raiseStackUnderflow (s : State) (i : Instr) : Result := .fault (.stackUnderflow s.fetchedFrom (encode i))

/-- Taking a fault: the only write is to the register `fault`; nothing is saved, no mode changes and control goes nowhere (R176,
R180). There is no return from a fault but `reset` (R181). The state is the one the faulting tick began in. -/
def State.takeFault (s : State) (f : Fault) : State := { s with fault := some f }

/-! ## Ports (10_state.md R40 to R47) -/

/-- `emit port(args)`. -/
def State.emit (s : State) (o : Output) : State := { s with out := o :: s.out }

/-- The answer `cont` of the coming `poll` (R41). -/
def State.nextPoll (s : State) : Bool :=
  match s.inputs.iterations with
  | [] => Config.pollAnswer s.inputs.iterationsDone
  | it :: _ => it.cont

/-- The elapsed time of the coming iteration (R47). -/
def State.nextElapsed (s : State) : Elapsed :=
  match s.inputs.iterations with
  | [] => Config.elapsed s.inputs.iterationsDone
  | it :: _ => it.dt

/-- The iteration's answers are taken from the ports. -/
def State.takeIteration (s : State) : State :=
  { s with inputs := { s.inputs with
      iterations := s.inputs.iterations.tail
      iterationsDone := s.inputs.iterationsDone + 1 } }

/-- The coming sample of `keys_in` (R42). -/
def State.nextKeys (s : State) : BitVec 16 :=
  match s.inputs.keySamples with
  | [] => Config.keySample s.inputs.samplesDone
  | k :: _ => k

/-- One sample is taken from `keys_in` (R42). -/
def State.takeSample (s : State) : State :=
  { s with inputs := { s.inputs with
      keySamples := s.inputs.keySamples.tail
      samplesDone := s.inputs.samplesDone + 1 } }

/-- The key refresh of a CPU tick: the snapshot is overwritten as a whole (R34, R42). -/
def State.refreshKeys (s : State) : State := { s.takeSample with keys := s.nextKeys }

/-- The coming random byte (R44). -/
def State.nextRand (s : State) : Byte :=
  match s.inputs.randBytes with
  | [] => Config.randByte s.inputs.drawsDone
  | b :: _ => b

/-- One random byte is drawn from the port (R44). -/
def State.takeRand (s : State) : State :=
  { s with inputs := { s.inputs with
      randBytes := s.inputs.randBytes.tail
      drawsDone := s.inputs.drawsDone + 1 } }

/-! ## Exact time (10_state.md R36, decision D24)

Sums and differences of rationals written out by numerator and denominator, so that they evaluate; Laws/Time.lean shows that
they are `+`, `-` and `≤`. -/

/-- `a + b`. -/
def timeAdd (a b : Rat) : Rat := mkRat (a.num * b.den + b.num * a.den) (a.den * b.den)

/-- `a - b`. -/
def timeSub (a b : Rat) : Rat := mkRat (a.num * b.den - b.num * a.den) (a.den * b.den)

/-- `p ≤ a`: an accumulator has crossed a period (decision D23). -/
def timeReached (a p : Rat) : Bool := decide (p.num * a.den ≤ a.num * p.den)

/-- T_CPU = 1/RATE seconds (00_scope.md R8). -/
def cpuPeriod (rate : Nat) : Rat := mkRat 1 rate

/-- T_TIMER = 1/60 seconds (00_scope.md R7). -/
def timerPeriod : Rat := mkRat 1 60

end Sys2Proof.Machine
end

