-- ==== Sys2Proof/Machine/Operands.lean ====
section
/-! DEFINITION. The operand forms of the machine (30_encoding.md R73, 43_index_memory.md R136): immediates zero-extended as they
stand, registers zero-extended where they meet a 16-bit register, decimal digits, glyph addresses, key codes. -/

namespace Sys2Proof.Machine

/-- `zext_16(nnn)` (30_encoding.md R73). -/
def wordOfAddr (nnn : Addr12) : Word := nnn.setWidth 16

/-- `zext_16(V[r])`. -/
def State.regWord (s : State) (r : Reg) : Word := (s.reg r).setWidth 16

/-- `font_base + 5 * v`, with all 8 bits of the register (43_index_memory.md R132). -/
def glyphAddress (v : Word) : Word := BitVec.ofNat 16 Config.fontBase + 5#16 * v

/-- Hundreds, tens and ones of a byte, in the order they are stored (43_index_memory.md R133; the order is log 12). -/
def decimalDigits (v : Byte) : List Byte :=
  [BitVec.ofNat 8 (v.toNat / 100), BitVec.ofNat 8 (v.toNat / 10 % 10), BitVec.ofNat 8 (v.toNat % 10)]

/-- Whether key `k` is pressed in the snapshot, for a code below 16 (10_state.md R34). -/
def State.keyPressed (s : State) (k : Nat) : Bool := s.keys.getLsbD k

/-- The least key code that is pressed (45_keys_timers.md R166). -/
def State.lowestKey (s : State) : Option Nat := (List.range 16).find? s.keyPressed

end Sys2Proof.Machine
end

