-- ==== Sys2Proof/Machine/Flags.lean ====
section
/-! DEFINITION. The flags: VF is written to exactly 0x00 or 0x01 (10_state.md R21), after the result (42_alu.md R112). -/

namespace Sys2Proof.Machine

/-- A flag as VF holds it. -/
def flagByte (b : Bool) : Byte := if b then 0x01#8 else 0x00#8

/-- Carry out of bit 7: the unsigned sum exceeds 255 (42_alu.md R117). -/
def addCarry (a b : Byte) : Bool := 255 < a.toNat + b.toNat

/-- NOT borrow of `a - b`: `a ≥ b` (42_alu.md R118, R119). -/
def notBorrow (a b : Byte) : Bool := b.toNat ≤ a.toNat

/-- The bit a right shift by one moves out (42_alu.md R120). -/
def lowBit (a : Byte) : Bool := a.getLsbD 0

/-- The bit a left shift by one moves out (42_alu.md R122). -/
def highBit (a : Byte) : Bool := a.getLsbD 7

/-- The result goes to `V[x]`, then the flag to VF, so that with `x` = F the flag stays (42_alu.md R112, decision D13, log 15). -/
def State.setRegFlag (s : State) (x : Reg) (v : Byte) (flag : Bool) : State := (s.setReg x v).setReg vF (flagByte flag)

end Sys2Proof.Machine
end

