-- ==== Sys2Proof/Machine/Alu.lean ====
section
/-! DEFINITION. Register load, arithmetic, logic, shift, random (spec/42_alu.md): unsigned 8-bit values that wrap (R125). -/

namespace Sys2Proof.Machine

/-- LD Vx, kk (R110). -/
def execLdImm (x : Reg) (kk : Byte) (s : State) : Result := .next (s.setReg x kk)

/-- ADD Vx, kk (R111): no flag. -/
def execAddImm (x : Reg) (kk : Byte) (s : State) : Result := .next (s.setReg x (s.reg x + kk))

/-- LD Vx, Vy (R113). -/
def execLdReg (x y : Reg) (s : State) : Result := .next (s.setReg x (s.reg y))

/-- OR Vx, Vy (R114): no flag. -/
def execOr (x y : Reg) (s : State) : Result := .next (s.setReg x (s.reg x ||| s.reg y))

/-- AND Vx, Vy (R115): no flag. -/
def execAnd (x y : Reg) (s : State) : Result := .next (s.setReg x (s.reg x &&& s.reg y))

/-- XOR Vx, Vy (R116): no flag. -/
def execXor (x y : Reg) (s : State) : Result := .next (s.setReg x (s.reg x ^^^ s.reg y))

/-- ADD Vx, Vy (R117). -/
def execAddReg (x y : Reg) (s : State) : Result :=
  .next (s.setRegFlag x (s.reg x + s.reg y) (addCarry (s.reg x) (s.reg y)))

/-- SUB Vx, Vy (R118). -/
def execSub (x y : Reg) (s : State) : Result :=
  .next (s.setRegFlag x (s.reg x - s.reg y) (notBorrow (s.reg x) (s.reg y)))

/-- SUBN Vx, Vy (R119). -/
def execSubn (x y : Reg) (s : State) : Result :=
  .next (s.setRegFlag x (s.reg y - s.reg x) (notBorrow (s.reg y) (s.reg x)))

/-- SHR Vx (R120): `Vy` is not used. -/
def execShr (x : Reg) (s : State) : Result := .next (s.setRegFlag x (s.reg x >>> 1) (lowBit (s.reg x)))

/-- SHL Vx (R122): `Vy` is not used. -/
def execShl (x : Reg) (s : State) : Result := .next (s.setRegFlag x (s.reg x <<< 1) (highBit (s.reg x)))

/-- RND Vx, kk (R124): exactly one byte is drawn from the input `rand`. -/
def execRnd (x : Reg) (kk : Byte) (s : State) : Result := .next (s.takeRand.setReg x (s.nextRand &&& kk))

end Sys2Proof.Machine
end

