-- ==== Sys2Proof/Machine/Display.lean ====
section
/-! DEFINITION. The display: CLS, DRW and the step `present` (spec/44_display.md). -/

namespace Sys2Proof.Machine

/-- `pix[row][col]`; false off the display, where there is no pixel. -/
def Grid.pixel (g : Grid) (row col : Nat) : Bool :=
  if h : row < Config.dispH ∧ col < Config.dispW then (g[row]'h.1)[col]'h.2 else false

/-- `pix[row][col] <- pix[row][col] ^ 1`; off the display nothing happens. -/
def Grid.flip (g : Grid) (row col : Nat) : Grid :=
  if h : row < Config.dispH ∧ col < Config.dispW then
    g.set row ((g[row]'h.1).set col (!(g[row]'h.1)[col]'h.2) h.2) h.1
  else g

/-- A draw in progress: the grid and the collision bit. -/
structure Drawing where
  grid : Grid
  coll : Bool
deriving DecidableEq, Repr

/-- One sprite bit, position `c` from the left, which is bit `7 - c` of the byte (R148): past the right edge it is skipped, and a
bit that is 0 changes nothing (R147, R149). -/
def drawPixel (x0 row : Nat) (b : Byte) (d : Drawing) (c : Nat) : Drawing :=
  if Config.dispW ≤ x0 + c then d
  else if b.getLsbD (7 - c) then
    { grid := d.grid.flip row (x0 + c), coll := d.coll || d.grid.pixel row (x0 + c) }
  else d

/-- One sprite row, its eight bits from the left. -/
def drawRow (x0 row : Nat) (b : Byte) (d : Drawing) : Drawing := [0, 1, 2, 3, 4, 5, 6, 7].foldl (drawPixel x0 row b) d

/-- The sprite rows from display row `row` down; the first row past the bottom edge ends the draw (R147). -/
def drawRows (x0 row : Nat) (d : Drawing) : List Byte → Drawing
  | [] => d
  | b :: bs => if Config.dispH ≤ row then d else drawRows x0 (row + 1) (drawRow x0 row b d) bs

/-- `draw(x, y, sprite_rows)`, with the full start coordinates as they stand (R146). -/
def drawSprite (g : Grid) (x0 y0 : Byte) (rows : List Byte) : Drawing :=
  drawRows x0.toNat y0.toNat { grid := g, coll := false } rows

/-- CLS (R150): every pixel false; `dirty` is not written (decision D21, log 20). -/
def execCls (s : State) : Result := .next (s.setPix blankGrid)

/-- DRW Vx, Vy, n (R151): the whole slice is checked and read first, `dirty` and VF are written by every execution. -/
def execDrw (x y : Reg) (n : Count) (s : State) : Result :=
  match s.loadBytes n.val with
  | .error addr => s.raiseMemRange (.drw x y n) addr
  | .ok rows =>
    let d := drawSprite s.pix (s.reg x) (s.reg y) rows
    .next (((s.setPix d.grid).setDirty true).setReg vF (flagByte d.coll))

/-- `present` (R152): if dirty, the whole grid goes to the port `render` and the flag is cleared. -/
def State.present (s : State) : State := if s.dirty then (s.emit (.render s.pix)).setDirty false else s

end Sys2Proof.Machine
end

