-- ==== Sys2Proof/Machine/Flow.lean ====
section
/-! DEFINITION. Control flow, no-ops and unknown opcodes (spec/40_flow.md). `pc` already holds the address of the instruction
plus 2 (10_state.md R22). -/

namespace Sys2Proof.Machine

/-- NOP0 (R90): nothing, and no `diag`. -/
def execNop0 (s : State) : Result := .next s

/-- RET (R91). -/
def execRet (s : State) : Result :=
  match s.pop with
  | none => s.raiseStackUnderflow .ret
  | some (target, t) => .next (t.setPc target)

/-- SYS nnn (R92): one `diag`, `nnn` is not used. -/
def execSys (nnn : Addr12) (s : State) : Result := .next (s.emit (.diag (encode (.sys nnn))))

/-- JP nnn (R93). -/
def execJp (nnn : Addr12) (s : State) : Result := .next (s.setPc (wordOfAddr nnn))

/-- CALL nnn (R94): pushes the address after the CALL. -/
def execCall (nnn : Addr12) (s : State) : Result :=
  match s.push s.pc with
  | none => s.raiseStackOverflow (.call nnn)
  | some t => .next (t.setPc (wordOfAddr nnn))

/-- JP V0, nnn (R95): a 16-bit sum, not reduced to 12 bits. -/
def execJpV0 (nnn : Addr12) (s : State) : Result := .next (s.setPc (s.regWord 0 + wordOfAddr nnn))

/-- A word that matches no instruction (R96): one `diag`. -/
def execUnknown (w : Word) (s : State) : Result := .next (s.emit (.diag w))

end Sys2Proof.Machine
end

