-- ==== Sys2Proof/Machine/IndexMemory.lean ====
section
/-! DEFINITION. Index register and memory transfer (spec/43_index_memory.md). No instruction here changes `I` but the first
three (R137), and a range that reaches address 4096 faults before anything is written (20_memory.md R55). -/

namespace Sys2Proof.Machine

/-- LD I, nnn (R130). -/
def execLdI (nnn : Addr12) (s : State) : Result := .next (s.setI (wordOfAddr nnn))

/-- ADD I, Vx (R131): wraps at 16 bits, no flag. -/
def execAddI (x : Reg) (s : State) : Result := .next (s.setI (s.I + s.regWord x))

/-- LD F, Vx (R132). -/
def execLdF (x : Reg) (s : State) : Result := .next (s.setI (glyphAddress (s.regWord x)))

/-- LD B, Vx (R133). -/
def execLdB (x : Reg) (s : State) : Result :=
  match s.storeBytes (decimalDigits (s.reg x)) with
  | .error addr => s.raiseMemRange (.ldB x) addr
  | .ok t => .next t

/-- LD [I], Vx (R134): V0 to Vx inclusive. -/
def execLdMemVx (x : Reg) (s : State) : Result :=
  match s.storeBytes (s.regsUpTo x) with
  | .error addr => s.raiseMemRange (.ldMemVx x) addr
  | .ok t => .next t

/-- LD Vx, [I] (R135): V0 to Vx inclusive. -/
def execLdVxMem (x : Reg) (s : State) : Result :=
  match s.loadBytes (x.val + 1) with
  | .error addr => s.raiseMemRange (.ldVxMem x) addr
  | .ok bytes => .next { s with V := writeRegs s.V 0 bytes }

end Sys2Proof.Machine
end

