-- ==== Sys2Proof/Machine/KeysTimers.lean ====
section
/-! DEFINITION. Keys and timer transfers (spec/45_keys_timers.md), and the timers' own step `timer_tick`
(60_exceptions.md R186). -/

namespace Sys2Proof.Machine

/-- SKP Vx (R161). -/
def execSkp (x : Reg) (s : State) : Result :=
  if 16 ≤ (s.reg x).toNat then s.raiseKeyIndex (.skp x) (s.reg x)
  else .next (s.skipIf (s.keyPressed (s.reg x).toNat))

/-- SKNP Vx (R162). -/
def execSknp (x : Reg) (s : State) : Result :=
  if 16 ≤ (s.reg x).toNat then s.raiseKeyIndex (.sknp x) (s.reg x)
  else .next (s.skipIf (!s.keyPressed (s.reg x).toNat))

/-- LD Vx, K (R166): with no key pressed `pc` goes back to the instruction, else Vx takes the lowest key code. -/
def execLdVxK (x : Reg) (s : State) : Result :=
  .next (match s.lowestKey with
    | none => s.setPc (s.pc - 2#16)
    | some k => s.setReg x (BitVec.ofNat 8 k))

/-- LD Vx, DT (R163; the direction of the three transfers is log 13). -/
def execLdVxDt (x : Reg) (s : State) : Result := .next (s.setReg x s.DT)

/-- LD DT, Vx (R164). -/
def execLdDtVx (x : Reg) (s : State) : Result := .next (s.setDT (s.reg x))

/-- LD ST, Vx (R165): no `beep` from the instruction. -/
def execLdStVx (x : Reg) (s : State) : Result := .next (s.setST (s.reg x))

/-- The delay timer's half of `timer_tick`: down by one, never below 0. -/
def State.tickDelay (s : State) : State := if s.DT = 0x00#8 then s else s.setDT (s.DT - 1#8)

/-- The sound timer's half: one `beep` and down by one, if it is not 0 (decision D22, log 21). -/
def State.tickSound (s : State) : State := if s.ST = 0x00#8 then s else (s.emit .beep).setST (s.ST - 1#8)

/-- `timer_tick` (60_exceptions.md R186). -/
def State.timerTick (s : State) : State := s.tickDelay.tickSound

end Sys2Proof.Machine
end

