-- ==== Sys2Proof/Machine/Scheduler.lean ====
section
/-! DEFINITION. The CPU tick and the scheduler (spec/60_exceptions.md R190 to R197), and the host's steps `reset` and `load`
(10_state.md R48). -/

namespace Sys2Proof.Machine

/-- `cpu_tick` (R190): the fetch range check comes first, then the key refresh, the fetch, and one instruction. -/
def cpuTick (s : State) : Result :=
  if s.fetchable then exec (decode s.fetchWord) s.refreshKeys.advancePc
  else .fault (.fetchRange s.pc)

/-- Both accumulators grow by the elapsed time (R195). -/
def State.accumulate (s : State) (dt : Rat) : State :=
  { s with accTimer := timeAdd s.accTimer dt, accCpu := timeAdd s.accCpu dt }

/-- The timer's half of an iteration: at most one tick, one period subtracted (R195, R196). -/
def State.timerPhase (s : State) : State :=
  if timeReached s.accTimer timerPeriod then
    { s.timerTick with accTimer := timeSub s.accTimer timerPeriod }
  else s

/-- The end of a CPU tick that did not fault: `present`, then one period is subtracted (R195). -/
def State.finishTick (s : State) : State :=
  { s.present with accCpu := timeSub s.accCpu (cpuPeriod s.rate) }

/-- What a faulting CPU tick has done to the input ports: where the fetch was in range, a sample was taken from `keys_in`, and it
is discarded: the snapshot keeps its value (R190). -/
def State.discardSample (s : State) : State := if s.fetchable then s.takeSample else s

/-- The CPU's half of an iteration: at most one tick. A fault ends the iteration there: the tick has no effect but the write to
the register `fault`, nothing is presented and nothing is subtracted (R176, R190, R195; log 7). DESIGN CHOICE: no `stop` is emitted
and the phase stays as it is, although a fault ends the run (R47, R197; log 31). -/
def cpuPhase (s : State) : Result :=
  if timeReached s.accCpu (cpuPeriod s.rate) then
    match cpuTick s with
    | .next t => .next t.finishTick
    | .fault f => .next (s.discardSample.takeFault f)
    | .refused r => .refused r
  else .next s

/-- `poll` answered 0: the run ends at once and `stop` is emitted (R195, R197, decision D26). -/
def State.endRun (s : State) : State := { s.emit .stop with phase := .ended }

/-- The run starts: `start` is emitted (R197). -/
def State.startRun (s : State) : State := { s.emit .start with phase := .running }

/-- The state the coming iteration starts from: a run that has not started emits `start` first (R197). -/
def State.begun (s : State) : State :=
  match s.phase with
  | .ready => s.startRun
  | .loaded => s.startRun
  | .running => s
  | .ended => s

/-- `sched_iteration` (R195): poll, accumulate, timer, then CPU and present. -/
def schedIteration (s : State) : Result :=
  if s.nextPoll then cpuPhase (s.takeIteration.accumulate s.nextElapsed.seconds).timerPhase
  else .next s.takeIteration.endRun

/-! ## The host's steps (60_exceptions.md R202): these two, and no other write of the state from outside -/

/-- Why a host's step is not accepted. -/
inductive HostRefusal where
  /-- A load of no byte (20_memory.md R60). -/
  | romEmpty
  /-- A load of more than 3584 bytes (20_memory.md R60). -/
  | romTooBig
  /-- A second load after one reset (20_memory.md R60, R202). -/
  | alreadyLoaded
  /-- A load during a run or after one, or on a faulted machine (R176, R202). -/
  | notBeforeRun
  /-- A reset during a run (70_reset_and_hazards.md R211). -/
  | duringRun
deriving DecidableEq, Repr

/-- Nothing has been loaded since reset and the run has not started. -/
def State.awaitsLoad (s : State) : Bool := s.phase == .ready && s.fault == none

/-- `load(bytes)` (20_memory.md R60): accepted after reset, before the run, at most once (R202), iff 1 to 3584 bytes; the program
goes to 0x200 and no state element changes beside. -/
def State.load (s : State) (bytes : List Byte) : Except HostRefusal State :=
  if !s.awaitsLoad then .error (if s.phase = .loaded then .alreadyLoaded else .notBeforeRun)
  else if bytes.length = 0 then .error .romEmpty
  else if Config.progMax < bytes.length then .error .romTooBig
  else .ok { s.setMem (s.mem.writeSlice Config.progBase bytes) with phase := .loaded }

/-- What `reset` does (70_reset_and_hazards.md R210): every state element takes its reset value, from any state, a faulted one too.
What is no state element stays: the parameter RATE as the host has set it (00_scope.md R8), the answers still to come at the input
ports, and the outputs already emitted (10_state.md R38; log 27). -/
def State.hostReset (s : State) : State := { State.reset with rate := s.rate, inputs := s.inputs, out := s.out }

/-- The run is going on: it has started, `poll` has not ended it, and no fault has. -/
def State.inRun (s : State) : Bool := s.phase == .running && s.fault == none

/-- `reset` as the host's step: only between runs (70_reset_and_hazards.md R211). -/
def State.tryReset (s : State) : Except HostRefusal State := if s.inRun then .error .duringRun else .ok s.hostReset

end Sys2Proof.Machine
end

