-- ==== Sys2Proof/Machine/Step.lean ====
section
/-! DEFINITION. One step of the machine: one `sched_iteration` of the run (spec/60_exceptions.md R195, R197; log 1). -/

namespace Sys2Proof.Machine

/-- A faulted machine has no step but the host's reset (R176). RATE must be positive (00_scope.md R8). The first iteration of a
run is preceded by `start`; after the run has ended there is no iteration (R197). -/
def step (s : State) : Host.Outcome State Fault Refusal :=
  match s.fault with
  | some f => .fault f
  | none =>
    if s.rate = 0 then .refused .rateNotPositive
    else
      match s.phase with
      | .ready => schedIteration s.begun
      | .loaded => schedIteration s.begun
      | .running => schedIteration s.begun
      | .ended => .refused .runEnded

/-- The address the host's word is put at: `pc`, or the entry point where nothing can be fetched at `pc`. -/
def State.slotForWord (s : State) : Word := if s.fetchable then s.pc else BitVec.ofNat 16 Config.progBase

/-- The elapsed time that just completes a CPU period. -/
def missingTime (acc : Rat) (rate : Nat) : Elapsed :=
  { num := (timeSub (cpuPeriod rate) acc).num.toNat, den := (timeSub (cpuPeriod rate) acc).den }

/-- `s` with a table word stored where the next step fetches, high byte first, and with all a step needs to run it: no fault, a
positive RATE, a run that has not ended, and a coming iteration whose `poll` answers 1 and whose elapsed time completes a CPU
period (log 27). -/
def State.withFetchWord (s : State) (nbits w : Nat) : State :=
  let a := s.slotForWord
  let bytes := bytesOfWord (tableWord nbits w)
  let rate := if s.rate = 0 then Config.defaultRate else s.rate
  { s with
    pc := a
    mem := s.mem.writeSlice a.toNat [bytes.1, bytes.2]
    fault := none
    rate := rate
    phase := if s.phase = .ended then .running else s.phase
    inputs := { s.inputs with
      iterations := { cont := true, dt := missingTime s.accCpu rate } :: s.inputs.iterations } }

end Sys2Proof.Machine
end

