-- ==== Sys2Proof/Safety.lean ====
section
/-! DEFINITION. What a safe state and a safe run are, in the terms the statements use. -/

namespace Sys2Proof.Machine

/-- No fault is recorded (60_exceptions.md R176: "a claim about a program has no fault as a premise or proves it"). -/
def State.Unfaulted (s : State) : Prop := s.fault = none

/-- The run can go on: no fault, a positive RATE, `poll` has not ended it. -/
def State.CanRun (s : State) : Prop := s.fault = none ∧ 0 < s.rate ∧ s.phase ≠ .ended

/-- The state in which the coming iteration tests the CPU accumulator: the answers taken, the time accumulated, the timers ticked
if they are due (60_exceptions.md R195). -/
def State.tickStart (s : State) : State :=
  (s.begun.takeIteration.accumulate s.nextElapsed.seconds).timerPhase

/-- The coming iteration fires a CPU tick (60_exceptions.md R195): the run can go on, `poll` answers 1, and the elapsed time
completes a CPU period. -/
def State.Ticks (s : State) : Prop :=
  s.CanRun ∧ s.nextPoll = true ∧ 1 / (s.rate : Rat) ≤ s.accCpu + s.nextElapsed.seconds

/-- The coming iteration fires a timer tick (60_exceptions.md R195). -/
def State.TimerDue (s : State) : Prop := 1 / 60 ≤ s.accTimer + s.nextElapsed.seconds

/-- The elapsed time of the iteration `k` after the coming one. -/
def State.elapsedAt (s : State) (k : Nat) : Rat :=
  (((s.inputs.iterations[k]?).map Iteration.dt).getD (Config.elapsed (s.inputs.iterationsDone + k))).seconds

/-- The elapsed time of the coming `n` iterations together. -/
def State.elapsedOver (s : State) (n : Nat) : Rat := ((List.range n).map s.elapsedAt).sum

/-- `n` steps from `s` reach `t`, and no fault is recorded there. -/
def SafeRun (n : Nat) (s t : State) : Prop := Host.Core.run Sys2Proof.core n s = .next t ∧ t.Unfaulted

/-- What every reachable state meets between two steps. The memory is in canonical form; `pc` is at most 0x10FE and a return
address at most 0x1000 (10_state.md R23); the display is presented after every tick, so the dirty flag is clear
(44_display.md R152); no accumulator is negative (60_exceptions.md R196). -/
structure State.Inv (s : State) : Prop where
  memory : s.mem.Wf
  pcBound : s.pc.toNat ≤ 0x10FE
  returnBound : ∀ k : Fin 16, (s.stack[k.val]).toNat ≤ 0x1000
  presented : s.dirty = false
  cpuNonneg : 0 ≤ s.accCpu
  timerNonneg : 0 ≤ s.accTimer

end Sys2Proof.Machine
end

