-- ==== Sys2Proof/Certificates/Slice0/Obligations.lean ====
section
/-! DEFINITION. The statements for the provers, from the numbered rules of spec/. A docstring names the rule, or the decision of
the spec and the log entry, that a statement rests on. -/

namespace Sys2Proof.Statement

open Sys2Proof.Machine

/-- The result of a step or a meaning is a next state that meets `P`. -/
def Completes (r : Result) (P : State → Prop) : Prop := ∃ t, r = .next t ∧ P t

/-- The register `x` takes `v`; every other register and every other field of the state is unchanged. -/
def WritesReg (r : Result) (s : State) (x : Reg) (v : Byte) : Prop :=
  Completes r fun t => t.reg x = v ∧ (∀ q, q ≠ x → t.reg q = s.reg q) ∧ t = { s with V := t.V }

/-- VF takes the flag, whatever `x` is; `Vx` takes `v` if `x` is not F; every other register and every other field of the state is
unchanged. -/
def WritesRegFlag (r : Result) (s : State) (x : Reg) (v : Byte) (flag : Bool) : Prop :=
  Completes r fun t =>
    t.reg vF = (if flag then 0x01#8 else 0x00#8) ∧ (x ≠ vF → t.reg x = v) ∧
      (∀ q, q ≠ x → q ≠ vF → t.reg q = s.reg q) ∧ t = { s with V := t.V }

/-- The memory reads the bytes `vs` from `base` up, and everything outside them as before; it keeps its canonical form, and every
other field of the state is unchanged. -/
def StoresBytes (r : Result) (s : State) (base : Nat) (vs : List Byte) : Prop :=
  Completes r fun t =>
    (∀ k (h : k < vs.length), t.mem.read (base + k) = vs[k]) ∧
      (∀ a, a < base ∨ base + vs.length ≤ a → t.mem.read a = s.mem.read a) ∧
      t.mem.Wf ∧ t = { s with mem := t.mem }

/-- A set bit of the sprite at `I`, drawn from column `x0` and row `y0` with `n` rows, falls on the pixel in row `r` and column `c`:
nothing wraps, bit 7 is leftmost (44_display.md R146 to R148; bit order and origin are log 11). -/
abbrev SpriteCovers (s : State) (x0 y0 n r c : Nat) : Prop :=
  y0 ≤ r ∧ r < y0 + n ∧ r < 32 ∧ x0 ≤ c ∧ c < x0 + 8 ∧ c < 64 ∧
    (s.mem.read (s.I.toNat + (r - y0))).getLsbD (7 - (c - x0)) = true

/-- The condition of each instruction's one fault (60_exceptions.md R177). -/
def FaultsOn : Instr → State → Prop
  | .call _, s => s.spInt = 15
  | .ret, s => s.spInt = -1
  | .drw _ _ n, s => 0 < n.val ∧ 4096 ≤ s.I.toNat + n.val - 1
  | .ldB _, s => 4096 ≤ s.I.toNat + 2
  | .ldMemVx x, s => 4096 ≤ s.I.toNat + x.val
  | .ldVxMem x, s => 4096 ≤ s.I.toNat + x.val
  | .skp x, s => 16 ≤ (s.reg x).toNat
  | .sknp x, s => 16 ≤ (s.reg x).toNat
  | _, _ => False

/-- The fault code an instruction can raise (60_exceptions.md R177). -/
def FaultCodeOf : Instr → Nat → Prop
  | .call _, k => k = 2
  | .ret, k => k = 3
  | .drw _ _ _, k => k = 4
  | .ldB _, k => k = 4
  | .ldMemVx _, k => k = 4
  | .ldVxMem _, k => k = 4
  | .skp _, k => k = 5
  | .sknp _, k => k = 5
  | _, _ => False

/-- The instructions that write VF as a flag (10_state.md R21). -/
def WritesFlag : Instr → Prop
  | .addReg _ _ | .sub _ _ | .shr _ _ | .subn _ _ | .shl _ _ | .drw _ _ _ => True
  | _ => False

/-- The registers an instruction names as its destination (10_state.md R20, R21): `Vx` of the loads, arithmetic, shifts, random,
timer read and key wait, and V0 to Vx of Fx65. -/
def IsDest : Instr → Reg → Prop
  | .ldImm x _, q | .addImm x _, q | .rnd x _, q => q = x
  | .ldReg x _, q | .orReg x _, q | .andReg x _, q | .xorReg x _, q => q = x
  | .addReg x _, q | .sub x _, q | .shr x _, q | .subn x _, q | .shl x _, q => q = x
  | .ldVxDt x, q | .ldVxK x, q => q = x
  | .ldVxMem x, q => q ≤ x
  | _, _ => False

/-- The instructions that can write `pc` beyond the fetch's advance (10_state.md R23). -/
def ControlsPc : Instr → Prop
  | .jp _ | .call _ | .ret | .jpV0 _ => True
  | .seImm _ _ | .sneImm _ _ | .seReg _ _ _ | .sneReg _ _ _ | .skp _ | .sknp _ => True
  | .ldVxK _ => True
  | _ => False

/-- The three instructions that read the key snapshot (10_state.md R34). -/
def ReadsKeys : Instr → Prop
  | .skp _ | .sknp _ | .ldVxK _ => True
  | _ => False

/-- The coming `poll` is answered by `c`: the head of the script, or past its end the free value at the number of iterations made
(10_state.md R41; log 2). -/
def PollAnswers (s : State) (c : Bool) : Prop :=
  (∀ it rest, s.inputs.iterations = it :: rest → c = it.cont) ∧
    (s.inputs.iterations = [] → c = Config.pollAnswer s.inputs.iterationsDone)

/-- The coming iteration is given the elapsed time `dt`: the head of the script, or past its end the free value at the number of
iterations made (10_state.md R47; log 2). -/
def ElapsedAnswers (s : State) (dt : Elapsed) : Prop :=
  (∀ it rest, s.inputs.iterations = it :: rest → dt = it.dt) ∧
    (s.inputs.iterations = [] → dt = Config.elapsed s.inputs.iterationsDone)

/-- The coming sample of `keys_in` is `k`: the head of the script, or past its end the free value at the number of samples taken
(10_state.md R42; log 2). -/
def SampleAnswers (s : State) (k : BitVec 16) : Prop :=
  (∀ k' rest, s.inputs.keySamples = k' :: rest → k = k') ∧
    (s.inputs.keySamples = [] → k = Config.keySample s.inputs.samplesDone)

/-- The input ports after the answers of one iteration have been taken. -/
def afterPoll (p : Inputs) : Inputs := { p with iterations := p.iterations.tail, iterationsDone := p.iterationsDone + 1 }

/-- The input ports after one key sample has been taken. -/
def afterSample (p : Inputs) : Inputs := { p with keySamples := p.keySamples.tail, samplesDone := p.samplesDone + 1 }

/-- The CPU ticks from `s` to `t`, two states of one run: each takes one key sample, but for the one whose fetch faults
(60_exceptions.md R190). -/
def cpuTicksBetween (s t : State) : Nat :=
  t.inputs.samplesDone - s.inputs.samplesDone +
    (match t.fault with
      | some (.fetchRange _) => 1
      | _ => 0)

/-- The font, one glyph of five bytes for each hexadecimal digit, top row first, written out from 20_memory.md R58. -/
def glyphs : List (List Nat) :=
  [[0xF0, 0x90, 0x90, 0x90, 0xF0], [0x20, 0x60, 0x20, 0x20, 0x70], [0xF0, 0x10, 0xF0, 0x80, 0xF0], [0xF0, 0x10, 0xF0, 0x10, 0xF0]] ++
  [[0x90, 0x90, 0xF0, 0x10, 0x10], [0xF0, 0x80, 0xF0, 0x10, 0xF0], [0xF0, 0x80, 0xF0, 0x90, 0xF0], [0xF0, 0x10, 0x20, 0x40, 0x40]] ++
  [[0xF0, 0x90, 0xF0, 0x90, 0xF0], [0xF0, 0x90, 0xF0, 0x10, 0xF0], [0xF0, 0x90, 0xF0, 0x90, 0x90], [0xE0, 0x90, 0xE0, 0x90, 0xE0]] ++
  [[0xF0, 0x80, 0x80, 0x80, 0xF0], [0xE0, 0x90, 0x90, 0x90, 0xE0], [0xF0, 0x80, 0xF0, 0x80, 0xF0], [0xF0, 0x80, 0xF0, 0x80, 0x80]]

/-- An outcome with a function applied to its next state. -/
def mapNext (f : State → State) : Result → Result
  | .next t => .next (f t)
  | .fault e => .fault e
  | .refused e => .refused e

end Sys2Proof.Statement

open Sys2Proof Sys2Proof.Machine Sys2Proof.Statement

/-! ## Encoding -/

/-- Decoding the word of any well-formed instruction gives the instruction back, every operand at every value (30_encoding.md,
sections 1 to 3). -/
def Obligations.DecodeOfEncode : Prop := ∀ i : Instr, i.wf = true → decode (encode i) = i

/-- Every one of the 65536 words decodes to a well-formed instruction whose word it is: the decoder is total and drops no bit
(30_encoding.md R84, which the spec marks as derived). -/
def Obligations.EncodeOfDecode : Prop := ∀ w : Word, (decode w).wf = true ∧ encode (decode w) = w

/-- The decoder, written by groups and selectors, gives the first row of the opcode map whose pattern the word has under the row's
mask (30_encoding.md section 3; the selectors of groups 0, 8, E and F are decision D14, log 14). -/
def Obligations.DecodeFollowsOpcodeMap : Prop := ∀ w : Word, rowMnemonic w = some (decode w).mnemonic

/-- A word is UNKNOWN exactly when it is in one of the classes listed in 30_encoding.md section 4, and it is then kept whole. -/
def Obligations.UnknownWordsListed : Prop :=
  ∀ w : Word,
    (decode w = .unknown w ↔
      (w.toNat / 4096 = 0x8 ∧ (8 ≤ w.toNat % 16 ∧ w.toNat % 16 ≤ 13 ∨ w.toNat % 16 = 15)) ∨
      (w.toNat / 4096 = 0xE ∧ w.toNat % 256 ≠ 0x9E ∧ w.toNat % 256 ≠ 0xA1) ∨
      (w.toNat / 4096 = 0xF ∧ w.toNat % 256 ∉ [0x07, 0x0A, 0x15, 0x18, 0x1E, 0x29, 0x33, 0x55, 0x65])) ∧
    (∀ v, decode w = .unknown v → v = w)

/-- Words written out from the encodings of 30_encoding.md section 3 decode to the instructions they stand for. -/
def Obligations.SampleWordsDecode : Prop :=
  decode 0x0000#16 = .nop0 ∧ decode 0x00E0#16 = .cls ∧ decode 0x01E0#16 = .sys 0x1E0#12 ∧ decode 0x1ABC#16 = .jp 0xABC#12 ∧
  decode 0x3A12#16 = .seImm 10 0x12#8 ∧ decode 0x5ABF#16 = .seReg 10 11 0xF#4 ∧ decode 0x8125#16 = .sub 1 2 ∧
  decode 0x8126#16 = .shr 1 2 ∧ decode 0x8AB8#16 = .unknown 0x8AB8#16 ∧ decode 0xC30F#16 = .rnd 3 0x0F#8 ∧
  decode 0xD125#16 = .drw 1 2 5 ∧ decode 0xE29E#16 = .skp 2 ∧ decode 0xF155#16 = .ldMemVx 1 ∧ decode 0xF065#16 = .ldVxMem 0

/-- The bits an operation ignores make no difference: the low nibble of 5xy_ and 9xy_ (30_encoding.md R76) and the `y` field of
8xy6 and 8xyE (42_alu.md section 5). -/
def Obligations.IgnoredBitsMakeNoDifference : Prop :=
  ∀ (x y z : Reg) (m n : Nibble) (s : State),
    exec (.seReg x y m) s = exec (.seReg x y n) s ∧ exec (.sneReg x y m) s = exec (.sneReg x y n) s ∧
    exec (.shr x y) s = exec (.shr x z) s ∧ exec (.shl x y) s = exec (.shl x z) s

/-! ## Control flow, no-ops, skips -/

/-- NOP0 changes nothing and emits nothing; SYS and a word that matches no instruction emit one `diag` with the opcode and change
nothing else (40_flow.md R90, R92, R96). -/
def Obligations.NoOpsAndTheirDiag : Prop :=
  (∀ s : State, exec .nop0 s = .next s) ∧
  (∀ (nnn : Addr12) (s : State), (Instr.sys nnn).wf = true →
    exec (.sys nnn) s = .next { s with out := .diag (BitVec.ofNat 16 nnn.toNat) :: s.out }) ∧
  (∀ (w : Word) (s : State), (Instr.unknown w).wf = true →
    exec (.unknown w) s = .next { s with out := .diag w :: s.out })

/-- JP sets `pc` to the zero-extended target and nothing else; only the target 0xFFF cannot be fetched from (40_flow.md R93). -/
def Obligations.JumpSetsPc : Prop :=
  ∀ (nnn : Addr12) (s : State),
    Completes (exec (.jp nnn) s) fun t =>
      t.pc.toNat = nnn.toNat ∧ t = { s with pc := t.pc } ∧ (t.fetchable = false ↔ nnn = 0xFFF#12)

/-- JP V0 sets `pc` to the 16-bit sum of V0 and the target, never reduced to 12 bits, and nothing else (40_flow.md section on Bnnn;
that the sum does not wrap is the spec's inference). -/
def Obligations.IndexedJumpAddsV0 : Prop :=
  ∀ (nnn : Addr12) (s : State),
    Completes (exec (.jpV0 nnn) s) fun t =>
      t.pc.toNat = (s.reg 0).toNat + nnn.toNat ∧ t = { s with pc := t.pc }

/-- With fewer than 16 calls live, CALL raises `sp` by one, puts the address after itself in the new top entry, leaves the other
entries, jumps, and changes nothing else (40_flow.md R94; the 16-entry guard is decision D19, log 18). -/
def Obligations.CallPushesReturnAddress : Prop :=
  ∀ (nnn : Addr12) (s : State), s.spInt ≠ 15 →
    Completes (exec (.call nnn) s) fun t =>
      t.spInt = s.spInt + 1 ∧ t.pc.toNat = nnn.toNat ∧
      (∃ k : Fin 16, t.sp = some k ∧ t.stack[k.val] = s.pc ∧ ∀ j : Fin 16, j ≠ k → t.stack[j.val] = s.stack[j.val]) ∧
      t = { s with pc := t.pc, sp := t.sp, stack := t.stack }

/-- With a call live, RET takes `pc` from the top entry, lowers `sp` by one, clears no entry and changes nothing else (40_flow.md
R91; the empty-stack guard is decision D19, log 18). -/
def Obligations.ReturnPopsTopEntry : Prop :=
  ∀ (s : State) (k : Fin 16), s.sp = some k →
    Completes (exec .ret s) fun t =>
      t.pc = s.stack[k.val] ∧ t.spInt = s.spInt - 1 ∧ t = { s with pc := t.pc, sp := t.sp }

/-- The seventeenth nested CALL, a RET with an empty stack, and SKP and SKNP with a key code of 16 or more raise their faults, with the
address and the word of the instruction (60_exceptions.md section 1; decisions D16 and D19, logs 18 and 19). -/
def Obligations.StackAndKeyFaultsRaised : Prop :=
  (∀ (nnn : Addr12) (s : State), s.spInt = 15 →
    exec (.call nnn) s = .fault (.stackOverflow (s.pc - 2#16) (BitVec.ofNat 16 (0x2000 + nnn.toNat)))) ∧
  (∀ s : State, s.spInt = -1 → exec .ret s = .fault (.stackUnderflow (s.pc - 2#16) 0x00EE#16)) ∧
  (∀ (x : Reg) (s : State), 16 ≤ (s.reg x).toNat →
    exec (.skp x) s = .fault (.keyIndex (s.pc - 2#16) (BitVec.ofNat 16 (0xE09E + 256 * x.val)) (s.reg x)) ∧
    exec (.sknp x) s = .fault (.keyIndex (s.pc - 2#16) (BitVec.ofNat 16 (0xE0A1 + 256 * x.val)) (s.reg x)))

/-- After a CALL, a RET from any state that has the call stack the CALL left goes back to the address after the CALL and to the
stack pointer before it (95_test_vectors.md S8). -/
def Obligations.ReturnUndoesCall : Prop :=
  ∀ (nnn : Addr12) (s : State), s.spInt ≠ 15 →
    Completes (exec (.call nnn) s) fun t =>
      ∀ u : State, u.sp = t.sp → u.stack = t.stack →
        Completes (exec .ret u) fun v => v.pc = s.pc ∧ v.sp = s.sp

/-- SE and SNE add 2 to `pc` when the register equals, or differs from, the byte or the other register (whatever the low nibble of
the word, which is conflict C2 and decision D15, log 14), and change nothing else (41_skips.md). -/
def Obligations.RegisterSkips : Prop :=
  (∀ (x : Reg) (kk : Byte) (s : State),
    exec (.seImm x kk) s = .next { s with pc := if s.reg x = kk then s.pc + 2#16 else s.pc } ∧
    exec (.sneImm x kk) s = .next { s with pc := if s.reg x ≠ kk then s.pc + 2#16 else s.pc }) ∧
  (∀ (x y : Reg) (low : Nibble) (s : State),
    exec (.seReg x y low) s = .next { s with pc := if s.reg x = s.reg y then s.pc + 2#16 else s.pc } ∧
    exec (.sneReg x y low) s = .next { s with pc := if s.reg x ≠ s.reg y then s.pc + 2#16 else s.pc })

/-! ## Register load, arithmetic, logic, shift, random -/

/-- LD Vx, kk and LD Vx, Vy (42_alu.md R110, R113). -/
def Obligations.LoadsWriteTheirRegister : Prop :=
  ∀ (x y : Reg) (kk : Byte) (s : State),
    WritesReg (exec (.ldImm x kk) s) s x kk ∧ WritesReg (exec (.ldReg x y) s) s x (s.reg y)

/-- ADD Vx, kk wraps at 256; OR, AND and XOR work bit by bit; none of the four writes VF unless it is the destination (42_alu.md
sections 2 and 3; that they write no flag is the spec's inference and decision D34, log 24). -/
def Obligations.FlaglessArithmetic : Prop :=
  ∀ (x y : Reg) (kk : Byte) (s : State),
    WritesReg (exec (.addImm x kk) s) s x (BitVec.ofNat 8 (((s.reg x).toNat + kk.toNat) % 256)) ∧
    WritesReg (exec (.orReg x y) s) s x (s.reg x ||| s.reg y) ∧
    WritesReg (exec (.andReg x y) s) s x (s.reg x &&& s.reg y) ∧
    WritesReg (exec (.xorReg x y) s) s x (s.reg x ^^^ s.reg y)

/-- ADD Vx, Vy: the sum mod 256, VF is the carry, both operands read first, VF written last (42_alu.md section 4; the order of the
writes is decision D13, log 15). -/
def Obligations.AddSetsCarry : Prop :=
  ∀ (x y : Reg) (s : State),
    WritesRegFlag (exec (.addReg x y) s) s x (BitVec.ofNat 8 (((s.reg x).toNat + (s.reg y).toNat) % 256))
      (decide ((s.reg x).toNat + (s.reg y).toNat > 255))

/-- SUB and SUBN: the difference mod 256, VF is NOT borrow, 1 in the equal case (42_alu.md section 4; decision D13, log 15). -/
def Obligations.SubtractsSetNotBorrow : Prop :=
  ∀ (x y : Reg) (s : State),
    WritesRegFlag (exec (.sub x y) s) s x (BitVec.ofNat 8 (((s.reg x).toNat + 256 - (s.reg y).toNat) % 256))
      (decide ((s.reg x).toNat ≥ (s.reg y).toNat)) ∧
    WritesRegFlag (exec (.subn x y) s) s x (BitVec.ofNat 8 (((s.reg y).toNat + 256 - (s.reg x).toNat) % 256))
      (decide ((s.reg y).toNat ≥ (s.reg x).toNat))

/-- SHR and SHL move Vx itself by one, fill with 0, and put the bit moved out in VF (42_alu.md section 5; decision D13, log 15). -/
def Obligations.ShiftsMoveByOne : Prop :=
  ∀ (x y : Reg) (s : State),
    WritesRegFlag (exec (.shr x y) s) s x (BitVec.ofNat 8 ((s.reg x).toNat / 2)) (decide ((s.reg x).toNat % 2 = 1)) ∧
    WritesRegFlag (exec (.shl x y) s) s x (BitVec.ofNat 8 ((s.reg x).toNat * 2 % 256)) (decide ((s.reg x).toNat ≥ 128))

/-- RND draws one byte, a free value, and writes it masked by `kk`; a bit that is 0 in `kk` is 0 in Vx; the other inputs, the other
registers and the rest of the state are unchanged (42_alu.md section 6; the free draw is decision D28, log 2). -/
def Obligations.RandomByteIsMasked : Prop :=
  ∀ (x : Reg) (kk : Byte) (s : State),
    Completes (exec (.rnd x kk) s) fun t =>
      (∀ r rest, s.inputs.randBytes = r :: rest → t.reg x = r &&& kk ∧ t.inputs.randBytes = rest) ∧
      (s.inputs.randBytes = [] → t.reg x = Config.randByte s.inputs.drawsDone &&& kk ∧ t.inputs.randBytes = []) ∧
      (∀ k, kk.getLsbD k = false → (t.reg x).getLsbD k = false) ∧
      (∀ q, q ≠ x → t.reg q = s.reg q) ∧
      t.inputs = { s.inputs with randBytes := t.inputs.randBytes, drawsDone := s.inputs.drawsDone + 1 } ∧
      t = { s with V := t.V, inputs := t.inputs }

/-! ## Index register and memory -/

/-- LD I, nnn (43_index_memory.md R130). -/
def Obligations.LoadIndexZeroExtends : Prop :=
  ∀ (nnn : Addr12) (s : State),
    Completes (exec (.ldI nnn) s) fun t => t.I.toNat = nnn.toNat ∧ t = { s with I := t.I }

/-- ADD I, Vx wraps at 65536 and LD F, Vx takes all 8 bits; neither writes VF (43_index_memory.md section on Fx1E and Fx29; the
spec's inferences and decision D31, log 24). -/
def Obligations.IndexArithmetic : Prop :=
  ∀ (x : Reg) (s : State),
    (Completes (exec (.addI x) s) fun t =>
      t.I.toNat = (s.I.toNat + (s.reg x).toNat) % 65536 ∧ t = { s with I := t.I }) ∧
    (Completes (exec (.ldF x) s) fun t =>
      t.I.toNat = 0x050 + 5 * (s.reg x).toNat ∧ t = { s with I := t.I })

/-- LD B stores hundreds, tens and ones at `I`, `I + 1`, `I + 2`, and nothing else changes (43_index_memory.md section on Fx33; the
digit order is from general knowledge, log 12; the range guard is decision D17, log 16). -/
def Obligations.DecimalDigitsStored : Prop :=
  ∀ (x : Reg) (s : State), s.mem.Wf → s.I.toNat + 2 < 4096 →
    StoresBytes (exec (.ldB x) s) s s.I.toNat
      [BitVec.ofNat 8 ((s.reg x).toNat / 100), BitVec.ofNat 8 ((s.reg x).toNat / 10 % 10),
       BitVec.ofNat 8 ((s.reg x).toNat % 10)]

/-- LD [I], Vx stores V0 to Vx, inclusive, from `I` up, and nothing else changes, `I` neither (43_index_memory.md section on Fx55;
decisions D17 and D32, logs 16 and 24). -/
def Obligations.RegistersStored : Prop :=
  ∀ (x : Reg) (s : State), s.mem.Wf → s.I.toNat + x.val < 4096 →
    StoresBytes (exec (.ldMemVx x) s) s s.I.toNat (((List.finRange 16).take (x.val + 1)).map s.reg)

/-- LD Vx, [I] loads V0 to Vx, inclusive, from `I` up; the registers above, memory, `I` and all the rest are unchanged
(43_index_memory.md section on Fx65; decisions D17 and D32, logs 16 and 24). -/
def Obligations.RegistersLoaded : Prop :=
  ∀ (x : Reg) (s : State), s.I.toNat + x.val < 4096 →
    Completes (exec (.ldVxMem x) s) fun t =>
      (∀ q, q ≤ x → t.reg q = s.mem.read (s.I.toNat + q.val)) ∧ (∀ q, x < q → t.reg q = s.reg q) ∧
      t = { s with V := t.V }

/-- The four instructions with a data range fault when its highest address is 4096 or more, with the address and word of the
instruction and the offending address; a draw of no rows never does (20_memory.md section 4, 60_exceptions.md section 1; decision
D17, log 16). -/
def Obligations.DataRangeFaultsRaised : Prop :=
  ∀ (x y : Reg) (n : Count) (s : State),
    (4096 ≤ s.I.toNat + 2 →
      exec (.ldB x) s = .fault (.memRange (s.pc - 2#16) (BitVec.ofNat 16 (0xF033 + 256 * x.val)) (s.I.toNat + 2))) ∧
    (4096 ≤ s.I.toNat + x.val →
      exec (.ldMemVx x) s = .fault (.memRange (s.pc - 2#16) (BitVec.ofNat 16 (0xF055 + 256 * x.val)) (s.I.toNat + x.val)) ∧
      exec (.ldVxMem x) s = .fault (.memRange (s.pc - 2#16) (BitVec.ofNat 16 (0xF065 + 256 * x.val)) (s.I.toNat + x.val))) ∧
    (0 < n.val → 4096 ≤ s.I.toNat + n.val - 1 →
      exec (.drw x y n) s =
        .fault (.memRange (s.pc - 2#16) (BitVec.ofNat 16 (0xD000 + 256 * x.val + 16 * y.val + n.val)) (s.I.toNat + n.val - 1)))

/-- What LD [I], Vx stored, LD Vx, [I] from the same `I` loads again, from any state with that memory (43_index_memory.md; a read
returns the last value written, 20_memory.md section 4). -/
def Obligations.LoadUndoesStore : Prop :=
  ∀ (x : Reg) (s : State), s.mem.Wf → s.I.toNat + x.val < 4096 →
    Completes (exec (.ldMemVx x) s) fun t =>
      ∀ u : State, u.mem = t.mem → u.I = s.I →
        Completes (exec (.ldVxMem x) u) fun v => ∀ q, q ≤ x → v.reg q = s.reg q

/-- A stored pair of bytes is what a later fetch at that address reads, the lower address in the high byte (20_memory.md sections 2
and 10; the spec marks the coherence rule as derived). -/
def Obligations.FetchSeesStores : Prop :=
  ∀ (x : Reg) (s : State), s.mem.Wf → 1 ≤ x.val → s.I.toNat + x.val < 4096 →
    Completes (exec (.ldMemVx x) s) fun t =>
      ∀ u : State, u.mem = t.mem → u.pc = s.I →
        u.fetchable = true ∧ u.fetchWord.toNat = (s.reg 0).toNat * 256 + (s.reg 1).toNat

/-- The fetch is big-endian and needs no alignment: `pc` odd or even, the byte at `pc` is the high byte and the byte at `pc + 1` the
low byte; it is in range exactly when `pc` is below 4095 (20_memory.md sections 2, 3 and 5; decisions D18 and D39, logs 17 and 25). -/
def Obligations.FetchIsBigEndian : Prop :=
  ∀ s : State,
    s.fetchWord.toNat = (s.mem.read s.pc.toNat).toNat * 256 + (s.mem.read (s.pc.toNat + 1)).toNat ∧
    (s.fetchable = true ↔ s.pc.toNat < 4095)

/-- A byte written is read back, every other byte is as before, and the canonical form is kept (20_memory.md sections 4 and 6: every
address is plain storage, the font too, decision D35, log 25). -/
def Obligations.MemoryReadsLastWrite : Prop :=
  ∀ (m : Memory) (a b : Nat) (v : Byte), m.Wf → a < 4096 →
    (m.write a v).read a = v ∧ (b ≠ a → (m.write a v).read b = m.read b) ∧ (m.write a v).Wf

/-- Two canonical memories that read alike at every address are the same list. -/
def Obligations.CanonicalMemoriesEqual : Prop :=
  ∀ m n : Memory, m.Wf → n.Wf → (∀ a, m.read a = n.read a) → m = n

/-! ## Display -/

/-- CLS turns every pixel off and changes nothing else, the dirty flag neither (44_display.md section 2; decision D21, log 20). -/
def Obligations.ClearTurnsAllPixelsOff : Prop :=
  ∀ s : State, Completes (exec .cls s) fun t => (∀ r c, t.pix.pixel r c = false) ∧ t = { s with pix := t.pix }

/-- DRW: each pixel of the display is XORed with the sprite bit that falls on it, VF is 1 exactly when some set pixel was turned off,
`dirty` is set, by every execution and with the coordinates as they were before VF is written; every other register and the rest
of the state are unchanged (44_display.md sections 1 and 2; bit order log 11, range guard log 16, `n` = 0 log 20). -/
def Obligations.DrawXorsSprite : Prop :=
  ∀ (x y : Reg) (n : Count) (s : State), n.val = 0 ∨ s.I.toNat + n.val ≤ 4096 →
    Completes (exec (.drw x y n) s) fun t =>
      (∀ r c, t.pix.pixel r c =
        (s.pix.pixel r c ^^ decide (SpriteCovers s (s.reg x).toNat (s.reg y).toNat n.val r c))) ∧
      ((∃ r c, SpriteCovers s (s.reg x).toNat (s.reg y).toNat n.val r c ∧ s.pix.pixel r c = true) → t.reg vF = 0x01#8) ∧
      ((∀ r c, SpriteCovers s (s.reg x).toNat (s.reg y).toNat n.val r c → s.pix.pixel r c = false) → t.reg vF = 0x00#8) ∧
      (∀ q, q ≠ vF → t.reg q = s.reg q) ∧ t.dirty = true ∧
      t = { s with V := t.V, pix := t.pix, dirty := t.dirty }

/-- Drawing a sprite twice at the same coordinates restores the display; from a blank display the first draw does not collide, and
the second does if the first set any pixel (44_display.md section 1, the source's example of collision). -/
def Obligations.DrawingTwiceRestores : Prop :=
  ∀ (x y : Reg) (n : Count) (s : State), n.val = 0 ∨ s.I.toNat + n.val ≤ 4096 →
    Completes (exec (.drw x y n) s) fun t =>
      (s.pix = blankGrid → t.reg vF = 0x00#8) ∧
      ∀ u : State, u.mem = s.mem → u.I = s.I → u.pix = t.pix → u.reg x = s.reg x → u.reg y = s.reg y →
        Completes (exec (.drw x y n) u) fun v =>
          v.pix = s.pix ∧ (s.pix = blankGrid → t.pix ≠ blankGrid → v.reg vF = 0x01#8)

/-- `present` sends the whole grid and clears the flag if the display is dirty, and otherwise does nothing (44_display.md section
3). -/
def Obligations.PresentSendsDirtyFrame : Prop :=
  ∀ s : State,
    (s.dirty = true → s.present = { s with dirty := false, out := .render s.pix :: s.out }) ∧
    (s.dirty = false → s.present = s)

/-! ## Keys and timers -/

/-- SKP and SKNP with a key code below 16 test that key and add 2 to `pc` or not; nothing else changes (45_keys_timers.md section
1; the guard on the code is decision D16, log 19). -/
def Obligations.KeySkips : Prop :=
  ∀ (x : Reg) (s : State), (s.reg x).toNat < 16 →
    exec (.skp x) s = .next { s with pc := if s.keys.getLsbD (s.reg x).toNat = true then s.pc + 2#16 else s.pc } ∧
    exec (.sknp x) s = .next { s with pc := if s.keys.getLsbD (s.reg x).toNat = false then s.pc + 2#16 else s.pc }

/-- LD Vx, K: with no key pressed `pc` goes back by 2 and nothing else changes; otherwise Vx takes the least pressed key and nothing
else changes (45_keys_timers.md section 1). -/
def Obligations.KeyWaitRewindsOrLoads : Prop :=
  ∀ (x : Reg) (s : State),
    ((∀ k < 16, s.keys.getLsbD k = false) → exec (.ldVxK x) s = .next { s with pc := s.pc - 2#16 }) ∧
    (∀ k < 16, s.keys.getLsbD k = true → (∀ j < k, s.keys.getLsbD j = false) →
      WritesReg (exec (.ldVxK x) s) s x (BitVec.ofNat 8 k))

/-- Fx07 reads the delay timer, Fx15 writes it, Fx18 writes the sound timer and emits no beep (45_keys_timers.md section 2; the
directions are from general knowledge, log 13). -/
def Obligations.TimerTransfers : Prop :=
  ∀ (x : Reg) (s : State),
    WritesReg (exec (.ldVxDt x) s) s x s.DT ∧
    exec (.ldDtVx x) s = .next { s with DT := s.reg x } ∧ exec (.ldStVx x) s = .next { s with ST := s.reg x }

/-- After any number of timer ticks the timers have counted down to no less than 0, a sound of `ST` = n has given exactly the first n
ticks one beep each, and nothing else has changed (60_exceptions.md section 4, 95_test_vectors.md S9; decision D22, log 21). -/
def Obligations.TimersReachZeroAndStay : Prop :=
  ∀ (k : Nat) (s : State),
    (State.timerTick^[k] s).DT.toNat = s.DT.toNat - k ∧ (State.timerTick^[k] s).ST.toNat = s.ST.toNat - k ∧
    (State.timerTick^[k] s).out = List.replicate (min k s.ST.toNat) Output.beep ++ s.out ∧
    State.timerTick^[k] s =
      { s with DT := (State.timerTick^[k] s).DT, ST := (State.timerTick^[k] s).ST, out := (State.timerTick^[k] s).out }

/-! ## Rules over all instructions -/

/-- Every instruction answers a next state, or a fault exactly on its one fault condition; none is refused (60_exceptions.md section
1; the conditions are decisions D16, D17 and D19, logs 16, 18 and 19). -/
def Obligations.EveryInstructionRunsOrFaults : Prop :=
  ∀ (i : Instr) (s : State),
    (FaultsOn i s → ∃ f, exec i s = .fault f) ∧ (¬ FaultsOn i s → ∃ t, exec i s = .next t)

/-- A fault an instruction raises has the code of its kind, the address the instruction was fetched from and the instruction's word
(60_exceptions.md section 1, 10_state.md section 7; log 29). -/
def Obligations.FaultRecordsNameTheInstruction : Prop :=
  ∀ (i : Instr) (s : State) (f : Fault), exec i s = .fault f →
    FaultCodeOf i f.code ∧ f.pcAtFetch = s.pc - 2#16 ∧ f.opcode = some (encode i)

/-- A general register is written only by an instruction that names it as a destination, or, VF alone, by one of the six flag writers,
which leave it 0x00 or 0x01 (10_state.md sections 1 and 2; that 8xy0 to 8xy3, 7xkk and Fx1E leave VF is the spec's inference, log
24). -/
def Obligations.OnlyDestinationsAndFlagsAreWritten : Prop :=
  ∀ (i : Instr) (s t : State), exec i s = .next t →
    (∀ q, ¬ IsDest i q → (q = vF → ¬ WritesFlag i) → t.reg q = s.reg q) ∧
    (WritesFlag i → t.reg vF = 0x00#8 ∨ t.reg vF = 0x01#8)

/-- Each of the other registers has the writers the spec lists: `pc`, beyond the fetch, jumps, calls, returns, taken skips and the key
wait; `I` Annn, Fx1E, Fx29; the stack pointer CALL and RET, a stack entry CALL alone; DT Fx15; ST Fx18; the display CLS and DRW,
`dirty` DRW; memory Fx33 and Fx55; the output ports SYS and UNKNOWN; the input ports RND; and no instruction writes the key snapshot,
the accumulators, the fault register, RATE or the state of the run (10_state.md sections 3, 4, 6, 7 and 9; decisions D21 and D32,
logs 20 and 24). -/
def Obligations.EachRegisterHasItsWriters : Prop :=
  ∀ (i : Instr) (s t : State), exec i s = .next t →
    (t.pc ≠ s.pc → ControlsPc i) ∧
    (t.I ≠ s.I → (∃ a, i = .ldI a) ∨ (∃ x, i = .addI x) ∨ (∃ x, i = .ldF x)) ∧
    (t.sp ≠ s.sp → (∃ a, i = .call a) ∨ i = .ret) ∧ (t.stack ≠ s.stack → ∃ a, i = .call a) ∧
    (t.DT ≠ s.DT → ∃ x, i = .ldDtVx x) ∧ (t.ST ≠ s.ST → ∃ x, i = .ldStVx x) ∧
    (t.pix ≠ s.pix → i = .cls ∨ ∃ x y n, i = .drw x y n) ∧ (t.dirty ≠ s.dirty → ∃ x y n, i = .drw x y n) ∧
    (t.mem ≠ s.mem → (∃ x, i = .ldB x) ∨ (∃ x, i = .ldMemVx x)) ∧
    (t.out ≠ s.out → (∃ a, i = .sys a) ∨ (∃ w, i = .unknown w)) ∧ (t.inputs ≠ s.inputs → ∃ x kk, i = .rnd x kk) ∧
    t.keys = s.keys ∧ t.accCpu = s.accCpu ∧ t.accTimer = s.accTimer ∧ t.fault = s.fault ∧ t.rate = s.rate ∧ t.phase = s.phase

/-- No instruction can see what has been emitted, the dirty flag, the accumulators, RATE or the state of the run: two states that
differ in those alone get results that differ in those alone (10_state.md sections 7 and 9, 60_exceptions.md section 8). -/
def Obligations.OutputsAndTimeAreInvisible : Prop :=
  ∀ (i : Instr) (s s' : State),
    s' = { s with dirty := s'.dirty, accCpu := s'.accCpu, accTimer := s'.accTimer, rate := s'.rate, phase := s'.phase,
                  out := s'.out } →
    (∀ t, exec i s = .next t → ∃ t', exec i s' = .next t' ∧
      t' = { t with dirty := t'.dirty, accCpu := s'.accCpu, accTimer := s'.accTimer, rate := s'.rate, phase := s'.phase,
                    out := t'.out }) ∧
    (∀ f, exec i s = .fault f → exec i s' = .fault f)

/-- Only SKP, SKNP and LD Vx, K depend on the key snapshot (10_state.md section 7, 45_keys_timers.md section 1). -/
def Obligations.OnlyKeyInstructionsReadKeys : Prop :=
  ∀ (i : Instr) (s : State) (k : BitVec 16), ¬ ReadsKeys i →
    exec i { s with keys := k } = mapNext (fun t => { t with keys := k }) (exec i s)

/-! ## Ticks, iterations, the run -/

/-- When the coming iteration fires a CPU tick and the bytes at `pc` are in range, the step is `exec` of the instruction they decode
to, at the state in which the tick begins but for `pc`, advanced by 2, the key snapshot, overwritten as a whole by the coming sample,
and the ports, from which that one sample is taken; a next state is presented and one CPU period subtracted; a fault is taken at the
state in which the tick began, the sample taken from the port and discarded (60_exceptions.md sections 5 and 6, 10_state.md sections
7 and 9; that the sample overwrites is decision D27; the readings are logs 1, 2, 6, 7, 22, 23 and 31). -/
def Obligations.StepRunsDecodedInstruction : Prop :=
  ∀ (s : State) (i : Instr) (k : BitVec 16), s.Ticks → s.fetchable = true → decode s.fetchWord = i → i.wf = true →
    SampleAnswers s k →
    let b := s.tickStart
    let e := { b with pc := s.pc + 2#16, keys := k, inputs := afterSample b.inputs }
    (∀ t, exec i e = .next t → step s = .next { t.present with accCpu := t.accCpu - 1 / (t.rate : Rat) }) ∧
    (∀ f, exec i e = .fault f → step s = .next { b with fault := some f, inputs := e.inputs })

/-- What the CPU tick of the coming iteration begins with: registers, `pc`, stack, keys, memory and display as they were; the run
running, with `start` emitted once if this is its first iteration, and not again if it is not; the timers, the sound port and the
timer accumulator after the timer tick if one is due, else as they were; both accumulators grown by the elapsed time; the
iteration's two answers, to `poll` and for the elapsed time, taken from the ports, which `nextPoll` and `nextElapsed` name. An
iteration whose elapsed time does not complete a CPU period ends there and runs no instruction (60_exceptions.md section 6,
10_state.md section 9; the order is decision D41, "crossed" is decision D23, logs 2, 5 and 22). -/
def Obligations.TimersTickBeforeTheInstruction : Prop :=
  ∀ (s : State) (c : Bool) (dt : Elapsed), s.phase ≠ .ended → PollAnswers s c → ElapsedAnswers s dt →
    let d : Rat := dt.num / dt.den
    let b : State :=
      { s with phase := .running, out := if s.phase = .running then s.out else .start :: s.out, inputs := afterPoll s.inputs }
    s.nextPoll = c ∧ s.nextElapsed.seconds = d ∧
    (1 / 60 ≤ s.accTimer + d → s.tickStart =
      { b.timerTick with accCpu := s.accCpu + d, accTimer := s.accTimer + d - 1 / 60 }) ∧
    (s.accTimer + d < 1 / 60 → s.tickStart = { b with accCpu := s.accCpu + d, accTimer := s.accTimer + d }) ∧
    (s.fault = none → 0 < s.rate → c = true → s.accCpu + d < 1 / (s.rate : Rat) → step s = .next s.tickStart)

/-- A CPU tick with `pc` at 4095 or more records the fetch fault and does nothing else: no key sample, no register, no byte, no
pixel, no output of the tick (20_memory.md section 3, 60_exceptions.md section 1; decisions D18 and D29, logs 6, 7 and 17; that no
`stop` is emitted and the phase stays running is log 31). -/
def Obligations.FetchPastMemoryFaults : Prop :=
  ∀ s : State, s.Ticks → 4095 ≤ s.pc.toNat → step s = .next { s.tickStart with fault := some (.fetchRange s.pc) }

/-- A step that records a fault leaves every register, `pc`, the stack, the keys, memory and the display as they were before it
(60_exceptions.md section 1; decision D29, logs 6 and 7). -/
def Obligations.FaultingStepChangesNoProgramState : Prop :=
  ∀ (s t : State) (f : Fault), step s = .next t → t.fault = some f →
    t.V = s.V ∧ t.I = s.I ∧ t.pc = s.pc ∧ t.sp = s.sp ∧ t.stack = s.stack ∧ t.keys = s.keys ∧ t.mem = s.mem ∧ t.pix = s.pix ∧
      t.dirty = s.dirty

/-- When no step is enabled: a faulted machine answers the recorded fault to every further step and to every run of one or more; an
unfaulted machine with RATE 0 is refused; one whose run has ended is refused. The way out of a fault or an ended run is the host's
reset: it is accepted in every state but during an unfaulted run, and gives each field its value in `State.reset` (`ResetValues`
says which), but for RATE, the answers to come at the input ports and the outputs emitted, which stay (60_exceptions.md sections 1,
6 and 9, 00_scope.md section 4, 70_reset_and_hazards.md section 1; decisions D26, D29, D30, logs 3, 5, 6 and 27). -/
def Obligations.NoStepIsEnabled : Prop :=
  (∀ (s : State) (f : Fault), s.fault = some f →
    step s = .fault f ∧ (∀ n, Host.Core.run Sys2Proof.core (n + 1) s = .fault f)) ∧
  (∀ s : State, s.fault = none → s.rate = 0 → step s = .refused .rateNotPositive) ∧
  (∀ s : State, s.fault = none → 0 < s.rate → s.phase = .ended → step s = .refused .runEnded) ∧
  (∀ s : State, s.fault = none → s.phase = .running → s.tryReset = .error .duringRun) ∧
  (∀ s : State, s.fault ≠ none ∨ s.phase ≠ .running →
    s.tryReset = .ok { State.reset with rate := s.rate, inputs := s.inputs, out := s.out })

/-- When `poll` answers 0 the run ends at once: `stop` is emitted (after `start`, where the run had not started), no accumulator, no
register, no byte and no pixel changes, the iteration's answers are taken from the ports and nothing else of them, and no further
step is taken (60_exceptions.md section 6, 10_state.md section 9, 95_test_vectors.md section 4.3; decision D26, logs 2, 5 and 22). -/
def Obligations.QuitEndsTheRun : Prop :=
  ∀ s : State, s.CanRun → PollAnswers s false →
    Completes (step s) fun t =>
      t.out = .stop :: (if s.phase = .running then s.out else .start :: s.out) ∧
      t = { s with phase := .ended, out := t.out, inputs := afterPoll s.inputs } ∧
      step t = .refused .runEnded

/-- One DRW, one frame: a step that draws sends exactly the grid as the draw left it and leaves the display clean, from any state in
which it was clean (44_display.md section 3, the spec's inference). -/
def Obligations.DrawIsPresentedAtOnce : Prop :=
  ∀ (s t : State) (x y : Reg) (n : Count), s.Ticks → s.fetchable = true → decode s.fetchWord = .drw x y n →
    step s = .next t → t.fault = none →
    t.dirty = false ∧ t.out = .render t.pix :: s.tickStart.out

/-- No catch-up: a step of a running machine subtracts from each accumulator one period or nothing, whatever the elapsed time was,
and runs at most one CPU tick (60_exceptions.md section 6, "No catch-up"). -/
def Obligations.NoCatchUp : Prop :=
  ∀ s t : State, step s = .next t → t.fault = none → s.nextPoll = true →
    ((1 / (s.rate : Rat) ≤ s.accCpu + s.nextElapsed.seconds ∧
        t.accCpu = s.accCpu + s.nextElapsed.seconds - 1 / (s.rate : Rat) ∧
        t.inputs.samplesDone = s.inputs.samplesDone + 1) ∨
     (s.accCpu + s.nextElapsed.seconds < 1 / (s.rate : Rat) ∧ t.accCpu = s.accCpu + s.nextElapsed.seconds ∧
        t.inputs.samplesDone = s.inputs.samplesDone)) ∧
    ((s.TimerDue ∧ t.accTimer = s.accTimer + s.nextElapsed.seconds - 1 / 60) ∨
     (¬ s.TimerDue ∧ t.accTimer = s.accTimer + s.nextElapsed.seconds))

/-- Rate bounds: over any run of `n` iterations from an unfaulted state whose accumulators are 0, the CPU ticks, a faulting one
included, are at most `n` and at most the elapsed time times RATE, and the beeps (each is a timer tick) are at most `n` and at most
the elapsed time times 60 (60_exceptions.md section 6, which the spec marks as derived). -/
def Obligations.TicksAreBoundedByElapsedTime : Prop :=
  ∀ (n : Nat) (s t : State), s.fault = none → s.accCpu = 0 → s.accTimer = 0 → Host.Core.run Sys2Proof.core n s = .next t →
    cpuTicksBetween s t ≤ n ∧ (cpuTicksBetween s t : Rat) ≤ s.elapsedOver n * s.rate ∧
    t.out.count .beep ≤ s.out.count .beep + n ∧
    (t.out.count .beep : Rat) - s.out.count .beep ≤ s.elapsedOver n * 60

/-- Every step keeps the invariant: canonical memory, `pc` at most 0x10FE and return addresses at most 0x1000, a clean display, no
negative accumulator (20_memory.md, 10_state.md section 3, 44_display.md section 3, 60_exceptions.md section 6; the bounds and the
sign are the spec's inferences). -/
def Obligations.StepKeepsInvariant : Prop := ∀ s t : State, s.Inv → step s = .next t → t.Inv

/-- The machine right after reset meets the invariant. -/
def Obligations.ResetMeetsInvariant : Prop := State.reset.Inv

/-! ## The host's steps -/

/-- After reset: `pc` 0x200, an empty stack, every register, timer, key and pixel 0, no fault, all 80 bytes of the font at 0x050 to
0x09F, five for each digit, and 0x00 at every other address (70_reset_and_hazards.md section 1; all but `pc`, `sp` and the font's place are the spec's decisions D2 to D8
and D25, logs 8 and 9; the font bytes are log 10). -/
def Obligations.ResetValues : Prop :=
  State.reset.pc = 0x200#16 ∧ State.reset.spInt = -1 ∧ (∀ r, State.reset.reg r = 0#8) ∧ State.reset.I = 0#16 ∧
  (∀ k : Fin 16, State.reset.stack[k.val] = 0#16) ∧ State.reset.DT = 0#8 ∧ State.reset.ST = 0#8 ∧ State.reset.keys = 0#16 ∧
  (∀ r c, State.reset.pix.pixel r c = false) ∧ State.reset.dirty = false ∧ State.reset.accCpu = 0 ∧ State.reset.accTimer = 0 ∧
  State.reset.fault = none ∧
  (∀ d < 16, ∀ k < 5, (State.reset.mem.read (0x050 + 5 * d + k)).toNat = (glyphs.getD d []).getD k 0) ∧
  (∀ a, a < 0x050 ∨ 0x0A0 ≤ a → State.reset.mem.read a = 0#8)

/-- After reset and before the run, a load of 1 to 3584 bytes puts them at 0x200 and changes nothing else but that a program is now
loaded, so that every further load is refused; a load of none or of more is refused; so is every load once a run has started, or on
a faulted machine (20_memory.md section 8, 60_exceptions.md section 9; conflict C8, decision D40, logs 5 and 27). -/
def Obligations.LoadPlacesTheProgram : Prop :=
  ∀ (s : State) (bytes : List Byte), s.mem.Wf →
    (s.phase = .ready → s.fault = none →
      (bytes.length = 0 → s.load bytes = .error .romEmpty) ∧ (3584 < bytes.length → s.load bytes = .error .romTooBig) ∧
      (1 ≤ bytes.length → bytes.length ≤ 3584 →
        ∃ t, s.load bytes = .ok t ∧ (∀ k (h : k < bytes.length), t.mem.read (0x200 + k) = bytes[k]) ∧
          (∀ a, a < 0x200 ∨ 0x200 + bytes.length ≤ a → t.mem.read a = s.mem.read a) ∧ t.mem.Wf ∧
          t = { s with mem := t.mem, phase := .loaded } ∧ ∀ more, t.load more = .error .alreadyLoaded)) ∧
    (s.phase = .loaded → s.load bytes = .error .alreadyLoaded) ∧
    (s.phase = .running ∨ s.phase = .ended ∨ s.phase = .ready ∧ s.fault ≠ none → s.load bytes = .error .notBeforeRun)

/-- A word the host places for the next step is fetched and run by it: the coming iteration fires a CPU tick, the fetch is in range,
and it reads the word (the model's own interface, log 27). -/
def Obligations.PlacedWordIsTheNextInstruction : Prop :=
  ∀ (s : State) (w : Word), s.mem.Wf →
    (s.withFetchWord 16 w.toNat).Ticks ∧ (s.withFetchWord 16 w.toNat).fetchable = true ∧
    (s.withFetchWord 16 w.toNat).fetchWord = w ∧ decodeTableWord 16 w.toNat = some (decode w)
end

