-- ==== Sys2Proof/Laws/State.lean ====
section
/-! SUPPORT. What each named update of a state leaves in each field: one lemma per field and update, true by definition. -/

namespace Sys2Proof.Machine

variable (s : State)

/-! ### setReg -/

@[simp] theorem State.setReg_V (r : Reg) (v : Byte) : (s.setReg r v).V = s.V.set r.val v := rfl
@[simp] theorem State.setReg_I (r : Reg) (v : Byte) : (s.setReg r v).I = s.I := rfl
@[simp] theorem State.setReg_pc (r : Reg) (v : Byte) : (s.setReg r v).pc = s.pc := rfl
@[simp] theorem State.setReg_stack (r : Reg) (v : Byte) : (s.setReg r v).stack = s.stack := rfl
@[simp] theorem State.setReg_sp (r : Reg) (v : Byte) : (s.setReg r v).sp = s.sp := rfl
@[simp] theorem State.setReg_DT (r : Reg) (v : Byte) : (s.setReg r v).DT = s.DT := rfl
@[simp] theorem State.setReg_ST (r : Reg) (v : Byte) : (s.setReg r v).ST = s.ST := rfl
@[simp] theorem State.setReg_keys (r : Reg) (v : Byte) : (s.setReg r v).keys = s.keys := rfl
@[simp] theorem State.setReg_mem (r : Reg) (v : Byte) : (s.setReg r v).mem = s.mem := rfl
@[simp] theorem State.setReg_pix (r : Reg) (v : Byte) : (s.setReg r v).pix = s.pix := rfl
@[simp] theorem State.setReg_dirty (r : Reg) (v : Byte) : (s.setReg r v).dirty = s.dirty := rfl
@[simp] theorem State.setReg_accCpu (r : Reg) (v : Byte) : (s.setReg r v).accCpu = s.accCpu := rfl
@[simp] theorem State.setReg_accTimer (r : Reg) (v : Byte) : (s.setReg r v).accTimer = s.accTimer := rfl
@[simp] theorem State.setReg_fault (r : Reg) (v : Byte) : (s.setReg r v).fault = s.fault := rfl
@[simp] theorem State.setReg_rate (r : Reg) (v : Byte) : (s.setReg r v).rate = s.rate := rfl
@[simp] theorem State.setReg_phase (r : Reg) (v : Byte) : (s.setReg r v).phase = s.phase := rfl
@[simp] theorem State.setReg_inputs (r : Reg) (v : Byte) : (s.setReg r v).inputs = s.inputs := rfl
@[simp] theorem State.setReg_out (r : Reg) (v : Byte) : (s.setReg r v).out = s.out := rfl
@[simp] theorem State.setReg_spInt (r : Reg) (v : Byte) : (s.setReg r v).spInt = s.spInt := rfl

/-! ### setPc -/

@[simp] theorem State.setPc_V (v : Word) : (s.setPc v).V = s.V := rfl
@[simp] theorem State.setPc_I (v : Word) : (s.setPc v).I = s.I := rfl
@[simp] theorem State.setPc_pc (v : Word) : (s.setPc v).pc = v := rfl
@[simp] theorem State.setPc_stack (v : Word) : (s.setPc v).stack = s.stack := rfl
@[simp] theorem State.setPc_sp (v : Word) : (s.setPc v).sp = s.sp := rfl
@[simp] theorem State.setPc_DT (v : Word) : (s.setPc v).DT = s.DT := rfl
@[simp] theorem State.setPc_ST (v : Word) : (s.setPc v).ST = s.ST := rfl
@[simp] theorem State.setPc_keys (v : Word) : (s.setPc v).keys = s.keys := rfl
@[simp] theorem State.setPc_mem (v : Word) : (s.setPc v).mem = s.mem := rfl
@[simp] theorem State.setPc_pix (v : Word) : (s.setPc v).pix = s.pix := rfl
@[simp] theorem State.setPc_dirty (v : Word) : (s.setPc v).dirty = s.dirty := rfl
@[simp] theorem State.setPc_accCpu (v : Word) : (s.setPc v).accCpu = s.accCpu := rfl
@[simp] theorem State.setPc_accTimer (v : Word) : (s.setPc v).accTimer = s.accTimer := rfl
@[simp] theorem State.setPc_fault (v : Word) : (s.setPc v).fault = s.fault := rfl
@[simp] theorem State.setPc_rate (v : Word) : (s.setPc v).rate = s.rate := rfl
@[simp] theorem State.setPc_phase (v : Word) : (s.setPc v).phase = s.phase := rfl
@[simp] theorem State.setPc_inputs (v : Word) : (s.setPc v).inputs = s.inputs := rfl
@[simp] theorem State.setPc_out (v : Word) : (s.setPc v).out = s.out := rfl
@[simp] theorem State.setPc_reg (v : Word) (q : Reg) : (s.setPc v).reg q = s.reg q := rfl
@[simp] theorem State.setPc_spInt (v : Word) : (s.setPc v).spInt = s.spInt := rfl

/-! ### setI -/

@[simp] theorem State.setI_V (v : Word) : (s.setI v).V = s.V := rfl
@[simp] theorem State.setI_I (v : Word) : (s.setI v).I = v := rfl
@[simp] theorem State.setI_pc (v : Word) : (s.setI v).pc = s.pc := rfl
@[simp] theorem State.setI_stack (v : Word) : (s.setI v).stack = s.stack := rfl
@[simp] theorem State.setI_sp (v : Word) : (s.setI v).sp = s.sp := rfl
@[simp] theorem State.setI_DT (v : Word) : (s.setI v).DT = s.DT := rfl
@[simp] theorem State.setI_ST (v : Word) : (s.setI v).ST = s.ST := rfl
@[simp] theorem State.setI_keys (v : Word) : (s.setI v).keys = s.keys := rfl
@[simp] theorem State.setI_mem (v : Word) : (s.setI v).mem = s.mem := rfl
@[simp] theorem State.setI_pix (v : Word) : (s.setI v).pix = s.pix := rfl
@[simp] theorem State.setI_dirty (v : Word) : (s.setI v).dirty = s.dirty := rfl
@[simp] theorem State.setI_accCpu (v : Word) : (s.setI v).accCpu = s.accCpu := rfl
@[simp] theorem State.setI_accTimer (v : Word) : (s.setI v).accTimer = s.accTimer := rfl
@[simp] theorem State.setI_fault (v : Word) : (s.setI v).fault = s.fault := rfl
@[simp] theorem State.setI_rate (v : Word) : (s.setI v).rate = s.rate := rfl
@[simp] theorem State.setI_phase (v : Word) : (s.setI v).phase = s.phase := rfl
@[simp] theorem State.setI_inputs (v : Word) : (s.setI v).inputs = s.inputs := rfl
@[simp] theorem State.setI_out (v : Word) : (s.setI v).out = s.out := rfl
@[simp] theorem State.setI_reg (v : Word) (q : Reg) : (s.setI v).reg q = s.reg q := rfl
@[simp] theorem State.setI_spInt (v : Word) : (s.setI v).spInt = s.spInt := rfl

/-! ### setDT -/

@[simp] theorem State.setDT_V (v : Byte) : (s.setDT v).V = s.V := rfl
@[simp] theorem State.setDT_I (v : Byte) : (s.setDT v).I = s.I := rfl
@[simp] theorem State.setDT_pc (v : Byte) : (s.setDT v).pc = s.pc := rfl
@[simp] theorem State.setDT_stack (v : Byte) : (s.setDT v).stack = s.stack := rfl
@[simp] theorem State.setDT_sp (v : Byte) : (s.setDT v).sp = s.sp := rfl
@[simp] theorem State.setDT_DT (v : Byte) : (s.setDT v).DT = v := rfl
@[simp] theorem State.setDT_ST (v : Byte) : (s.setDT v).ST = s.ST := rfl
@[simp] theorem State.setDT_keys (v : Byte) : (s.setDT v).keys = s.keys := rfl
@[simp] theorem State.setDT_mem (v : Byte) : (s.setDT v).mem = s.mem := rfl
@[simp] theorem State.setDT_pix (v : Byte) : (s.setDT v).pix = s.pix := rfl
@[simp] theorem State.setDT_dirty (v : Byte) : (s.setDT v).dirty = s.dirty := rfl
@[simp] theorem State.setDT_accCpu (v : Byte) : (s.setDT v).accCpu = s.accCpu := rfl
@[simp] theorem State.setDT_accTimer (v : Byte) : (s.setDT v).accTimer = s.accTimer := rfl
@[simp] theorem State.setDT_fault (v : Byte) : (s.setDT v).fault = s.fault := rfl
@[simp] theorem State.setDT_rate (v : Byte) : (s.setDT v).rate = s.rate := rfl
@[simp] theorem State.setDT_phase (v : Byte) : (s.setDT v).phase = s.phase := rfl
@[simp] theorem State.setDT_inputs (v : Byte) : (s.setDT v).inputs = s.inputs := rfl
@[simp] theorem State.setDT_out (v : Byte) : (s.setDT v).out = s.out := rfl
@[simp] theorem State.setDT_reg (v : Byte) (q : Reg) : (s.setDT v).reg q = s.reg q := rfl
@[simp] theorem State.setDT_spInt (v : Byte) : (s.setDT v).spInt = s.spInt := rfl

/-! ### setST -/

@[simp] theorem State.setST_V (v : Byte) : (s.setST v).V = s.V := rfl
@[simp] theorem State.setST_I (v : Byte) : (s.setST v).I = s.I := rfl
@[simp] theorem State.setST_pc (v : Byte) : (s.setST v).pc = s.pc := rfl
@[simp] theorem State.setST_stack (v : Byte) : (s.setST v).stack = s.stack := rfl
@[simp] theorem State.setST_sp (v : Byte) : (s.setST v).sp = s.sp := rfl
@[simp] theorem State.setST_DT (v : Byte) : (s.setST v).DT = s.DT := rfl
@[simp] theorem State.setST_ST (v : Byte) : (s.setST v).ST = v := rfl
@[simp] theorem State.setST_keys (v : Byte) : (s.setST v).keys = s.keys := rfl
@[simp] theorem State.setST_mem (v : Byte) : (s.setST v).mem = s.mem := rfl
@[simp] theorem State.setST_pix (v : Byte) : (s.setST v).pix = s.pix := rfl
@[simp] theorem State.setST_dirty (v : Byte) : (s.setST v).dirty = s.dirty := rfl
@[simp] theorem State.setST_accCpu (v : Byte) : (s.setST v).accCpu = s.accCpu := rfl
@[simp] theorem State.setST_accTimer (v : Byte) : (s.setST v).accTimer = s.accTimer := rfl
@[simp] theorem State.setST_fault (v : Byte) : (s.setST v).fault = s.fault := rfl
@[simp] theorem State.setST_rate (v : Byte) : (s.setST v).rate = s.rate := rfl
@[simp] theorem State.setST_phase (v : Byte) : (s.setST v).phase = s.phase := rfl
@[simp] theorem State.setST_inputs (v : Byte) : (s.setST v).inputs = s.inputs := rfl
@[simp] theorem State.setST_out (v : Byte) : (s.setST v).out = s.out := rfl
@[simp] theorem State.setST_reg (v : Byte) (q : Reg) : (s.setST v).reg q = s.reg q := rfl
@[simp] theorem State.setST_spInt (v : Byte) : (s.setST v).spInt = s.spInt := rfl

/-! ### setMem -/

@[simp] theorem State.setMem_V (m : Memory) : (s.setMem m).V = s.V := rfl
@[simp] theorem State.setMem_I (m : Memory) : (s.setMem m).I = s.I := rfl
@[simp] theorem State.setMem_pc (m : Memory) : (s.setMem m).pc = s.pc := rfl
@[simp] theorem State.setMem_stack (m : Memory) : (s.setMem m).stack = s.stack := rfl
@[simp] theorem State.setMem_sp (m : Memory) : (s.setMem m).sp = s.sp := rfl
@[simp] theorem State.setMem_DT (m : Memory) : (s.setMem m).DT = s.DT := rfl
@[simp] theorem State.setMem_ST (m : Memory) : (s.setMem m).ST = s.ST := rfl
@[simp] theorem State.setMem_keys (m : Memory) : (s.setMem m).keys = s.keys := rfl
@[simp] theorem State.setMem_mem (m : Memory) : (s.setMem m).mem = m := rfl
@[simp] theorem State.setMem_pix (m : Memory) : (s.setMem m).pix = s.pix := rfl
@[simp] theorem State.setMem_dirty (m : Memory) : (s.setMem m).dirty = s.dirty := rfl
@[simp] theorem State.setMem_accCpu (m : Memory) : (s.setMem m).accCpu = s.accCpu := rfl
@[simp] theorem State.setMem_accTimer (m : Memory) : (s.setMem m).accTimer = s.accTimer := rfl
@[simp] theorem State.setMem_fault (m : Memory) : (s.setMem m).fault = s.fault := rfl
@[simp] theorem State.setMem_rate (m : Memory) : (s.setMem m).rate = s.rate := rfl
@[simp] theorem State.setMem_phase (m : Memory) : (s.setMem m).phase = s.phase := rfl
@[simp] theorem State.setMem_inputs (m : Memory) : (s.setMem m).inputs = s.inputs := rfl
@[simp] theorem State.setMem_out (m : Memory) : (s.setMem m).out = s.out := rfl
@[simp] theorem State.setMem_reg (m : Memory) (q : Reg) : (s.setMem m).reg q = s.reg q := rfl
@[simp] theorem State.setMem_spInt (m : Memory) : (s.setMem m).spInt = s.spInt := rfl

/-! ### setPix -/

@[simp] theorem State.setPix_V (g : Grid) : (s.setPix g).V = s.V := rfl
@[simp] theorem State.setPix_I (g : Grid) : (s.setPix g).I = s.I := rfl
@[simp] theorem State.setPix_pc (g : Grid) : (s.setPix g).pc = s.pc := rfl
@[simp] theorem State.setPix_stack (g : Grid) : (s.setPix g).stack = s.stack := rfl
@[simp] theorem State.setPix_sp (g : Grid) : (s.setPix g).sp = s.sp := rfl
@[simp] theorem State.setPix_DT (g : Grid) : (s.setPix g).DT = s.DT := rfl
@[simp] theorem State.setPix_ST (g : Grid) : (s.setPix g).ST = s.ST := rfl
@[simp] theorem State.setPix_keys (g : Grid) : (s.setPix g).keys = s.keys := rfl
@[simp] theorem State.setPix_mem (g : Grid) : (s.setPix g).mem = s.mem := rfl
@[simp] theorem State.setPix_pix (g : Grid) : (s.setPix g).pix = g := rfl
@[simp] theorem State.setPix_dirty (g : Grid) : (s.setPix g).dirty = s.dirty := rfl
@[simp] theorem State.setPix_accCpu (g : Grid) : (s.setPix g).accCpu = s.accCpu := rfl
@[simp] theorem State.setPix_accTimer (g : Grid) : (s.setPix g).accTimer = s.accTimer := rfl
@[simp] theorem State.setPix_fault (g : Grid) : (s.setPix g).fault = s.fault := rfl
@[simp] theorem State.setPix_rate (g : Grid) : (s.setPix g).rate = s.rate := rfl
@[simp] theorem State.setPix_phase (g : Grid) : (s.setPix g).phase = s.phase := rfl
@[simp] theorem State.setPix_inputs (g : Grid) : (s.setPix g).inputs = s.inputs := rfl
@[simp] theorem State.setPix_out (g : Grid) : (s.setPix g).out = s.out := rfl
@[simp] theorem State.setPix_reg (g : Grid) (q : Reg) : (s.setPix g).reg q = s.reg q := rfl
@[simp] theorem State.setPix_spInt (g : Grid) : (s.setPix g).spInt = s.spInt := rfl

/-! ### setDirty -/

@[simp] theorem State.setDirty_V (b : Bool) : (s.setDirty b).V = s.V := rfl
@[simp] theorem State.setDirty_I (b : Bool) : (s.setDirty b).I = s.I := rfl
@[simp] theorem State.setDirty_pc (b : Bool) : (s.setDirty b).pc = s.pc := rfl
@[simp] theorem State.setDirty_stack (b : Bool) : (s.setDirty b).stack = s.stack := rfl
@[simp] theorem State.setDirty_sp (b : Bool) : (s.setDirty b).sp = s.sp := rfl
@[simp] theorem State.setDirty_DT (b : Bool) : (s.setDirty b).DT = s.DT := rfl
@[simp] theorem State.setDirty_ST (b : Bool) : (s.setDirty b).ST = s.ST := rfl
@[simp] theorem State.setDirty_keys (b : Bool) : (s.setDirty b).keys = s.keys := rfl
@[simp] theorem State.setDirty_mem (b : Bool) : (s.setDirty b).mem = s.mem := rfl
@[simp] theorem State.setDirty_pix (b : Bool) : (s.setDirty b).pix = s.pix := rfl
@[simp] theorem State.setDirty_dirty (b : Bool) : (s.setDirty b).dirty = b := rfl
@[simp] theorem State.setDirty_accCpu (b : Bool) : (s.setDirty b).accCpu = s.accCpu := rfl
@[simp] theorem State.setDirty_accTimer (b : Bool) : (s.setDirty b).accTimer = s.accTimer := rfl
@[simp] theorem State.setDirty_fault (b : Bool) : (s.setDirty b).fault = s.fault := rfl
@[simp] theorem State.setDirty_rate (b : Bool) : (s.setDirty b).rate = s.rate := rfl
@[simp] theorem State.setDirty_phase (b : Bool) : (s.setDirty b).phase = s.phase := rfl
@[simp] theorem State.setDirty_inputs (b : Bool) : (s.setDirty b).inputs = s.inputs := rfl
@[simp] theorem State.setDirty_out (b : Bool) : (s.setDirty b).out = s.out := rfl
@[simp] theorem State.setDirty_reg (b : Bool) (q : Reg) : (s.setDirty b).reg q = s.reg q := rfl
@[simp] theorem State.setDirty_spInt (b : Bool) : (s.setDirty b).spInt = s.spInt := rfl

/-! ### emit -/

@[simp] theorem State.emit_V (o : Output) : (s.emit o).V = s.V := rfl
@[simp] theorem State.emit_I (o : Output) : (s.emit o).I = s.I := rfl
@[simp] theorem State.emit_pc (o : Output) : (s.emit o).pc = s.pc := rfl
@[simp] theorem State.emit_stack (o : Output) : (s.emit o).stack = s.stack := rfl
@[simp] theorem State.emit_sp (o : Output) : (s.emit o).sp = s.sp := rfl
@[simp] theorem State.emit_DT (o : Output) : (s.emit o).DT = s.DT := rfl
@[simp] theorem State.emit_ST (o : Output) : (s.emit o).ST = s.ST := rfl
@[simp] theorem State.emit_keys (o : Output) : (s.emit o).keys = s.keys := rfl
@[simp] theorem State.emit_mem (o : Output) : (s.emit o).mem = s.mem := rfl
@[simp] theorem State.emit_pix (o : Output) : (s.emit o).pix = s.pix := rfl
@[simp] theorem State.emit_dirty (o : Output) : (s.emit o).dirty = s.dirty := rfl
@[simp] theorem State.emit_accCpu (o : Output) : (s.emit o).accCpu = s.accCpu := rfl
@[simp] theorem State.emit_accTimer (o : Output) : (s.emit o).accTimer = s.accTimer := rfl
@[simp] theorem State.emit_fault (o : Output) : (s.emit o).fault = s.fault := rfl
@[simp] theorem State.emit_rate (o : Output) : (s.emit o).rate = s.rate := rfl
@[simp] theorem State.emit_phase (o : Output) : (s.emit o).phase = s.phase := rfl
@[simp] theorem State.emit_inputs (o : Output) : (s.emit o).inputs = s.inputs := rfl
@[simp] theorem State.emit_out (o : Output) : (s.emit o).out = o :: s.out := rfl
@[simp] theorem State.emit_reg (o : Output) (q : Reg) : (s.emit o).reg q = s.reg q := rfl
@[simp] theorem State.emit_spInt (o : Output) : (s.emit o).spInt = s.spInt := rfl

/-! ### takeFault -/

@[simp] theorem State.takeFault_V (f : Fault) : (s.takeFault f).V = s.V := rfl
@[simp] theorem State.takeFault_I (f : Fault) : (s.takeFault f).I = s.I := rfl
@[simp] theorem State.takeFault_pc (f : Fault) : (s.takeFault f).pc = s.pc := rfl
@[simp] theorem State.takeFault_stack (f : Fault) : (s.takeFault f).stack = s.stack := rfl
@[simp] theorem State.takeFault_sp (f : Fault) : (s.takeFault f).sp = s.sp := rfl
@[simp] theorem State.takeFault_DT (f : Fault) : (s.takeFault f).DT = s.DT := rfl
@[simp] theorem State.takeFault_ST (f : Fault) : (s.takeFault f).ST = s.ST := rfl
@[simp] theorem State.takeFault_keys (f : Fault) : (s.takeFault f).keys = s.keys := rfl
@[simp] theorem State.takeFault_mem (f : Fault) : (s.takeFault f).mem = s.mem := rfl
@[simp] theorem State.takeFault_pix (f : Fault) : (s.takeFault f).pix = s.pix := rfl
@[simp] theorem State.takeFault_dirty (f : Fault) : (s.takeFault f).dirty = s.dirty := rfl
@[simp] theorem State.takeFault_accCpu (f : Fault) : (s.takeFault f).accCpu = s.accCpu := rfl
@[simp] theorem State.takeFault_accTimer (f : Fault) : (s.takeFault f).accTimer = s.accTimer := rfl
@[simp] theorem State.takeFault_fault (f : Fault) : (s.takeFault f).fault = some f := rfl
@[simp] theorem State.takeFault_rate (f : Fault) : (s.takeFault f).rate = s.rate := rfl
@[simp] theorem State.takeFault_phase (f : Fault) : (s.takeFault f).phase = s.phase := rfl
@[simp] theorem State.takeFault_inputs (f : Fault) : (s.takeFault f).inputs = s.inputs := rfl
@[simp] theorem State.takeFault_out (f : Fault) : (s.takeFault f).out = s.out := rfl
@[simp] theorem State.takeFault_reg (f : Fault) (q : Reg) : (s.takeFault f).reg q = s.reg q := rfl
@[simp] theorem State.takeFault_spInt (f : Fault) : (s.takeFault f).spInt = s.spInt := rfl

/-! ### takeIteration -/

@[simp] theorem State.takeIteration_V : (s.takeIteration).V = s.V := rfl
@[simp] theorem State.takeIteration_I : (s.takeIteration).I = s.I := rfl
@[simp] theorem State.takeIteration_pc : (s.takeIteration).pc = s.pc := rfl
@[simp] theorem State.takeIteration_stack : (s.takeIteration).stack = s.stack := rfl
@[simp] theorem State.takeIteration_sp : (s.takeIteration).sp = s.sp := rfl
@[simp] theorem State.takeIteration_DT : (s.takeIteration).DT = s.DT := rfl
@[simp] theorem State.takeIteration_ST : (s.takeIteration).ST = s.ST := rfl
@[simp] theorem State.takeIteration_keys : (s.takeIteration).keys = s.keys := rfl
@[simp] theorem State.takeIteration_mem : (s.takeIteration).mem = s.mem := rfl
@[simp] theorem State.takeIteration_pix : (s.takeIteration).pix = s.pix := rfl
@[simp] theorem State.takeIteration_dirty : (s.takeIteration).dirty = s.dirty := rfl
@[simp] theorem State.takeIteration_accCpu : (s.takeIteration).accCpu = s.accCpu := rfl
@[simp] theorem State.takeIteration_accTimer : (s.takeIteration).accTimer = s.accTimer := rfl
@[simp] theorem State.takeIteration_fault : (s.takeIteration).fault = s.fault := rfl
@[simp] theorem State.takeIteration_rate : (s.takeIteration).rate = s.rate := rfl
@[simp] theorem State.takeIteration_phase : (s.takeIteration).phase = s.phase := rfl
@[simp] theorem State.takeIteration_out : (s.takeIteration).out = s.out := rfl
@[simp] theorem State.takeIteration_reg (q : Reg) : (s.takeIteration).reg q = s.reg q := rfl
@[simp] theorem State.takeIteration_spInt : (s.takeIteration).spInt = s.spInt := rfl

/-! ### takeRand -/

@[simp] theorem State.takeRand_V : (s.takeRand).V = s.V := rfl
@[simp] theorem State.takeRand_I : (s.takeRand).I = s.I := rfl
@[simp] theorem State.takeRand_pc : (s.takeRand).pc = s.pc := rfl
@[simp] theorem State.takeRand_stack : (s.takeRand).stack = s.stack := rfl
@[simp] theorem State.takeRand_sp : (s.takeRand).sp = s.sp := rfl
@[simp] theorem State.takeRand_DT : (s.takeRand).DT = s.DT := rfl
@[simp] theorem State.takeRand_ST : (s.takeRand).ST = s.ST := rfl
@[simp] theorem State.takeRand_keys : (s.takeRand).keys = s.keys := rfl
@[simp] theorem State.takeRand_mem : (s.takeRand).mem = s.mem := rfl
@[simp] theorem State.takeRand_pix : (s.takeRand).pix = s.pix := rfl
@[simp] theorem State.takeRand_dirty : (s.takeRand).dirty = s.dirty := rfl
@[simp] theorem State.takeRand_accCpu : (s.takeRand).accCpu = s.accCpu := rfl
@[simp] theorem State.takeRand_accTimer : (s.takeRand).accTimer = s.accTimer := rfl
@[simp] theorem State.takeRand_fault : (s.takeRand).fault = s.fault := rfl
@[simp] theorem State.takeRand_rate : (s.takeRand).rate = s.rate := rfl
@[simp] theorem State.takeRand_phase : (s.takeRand).phase = s.phase := rfl
@[simp] theorem State.takeRand_out : (s.takeRand).out = s.out := rfl
@[simp] theorem State.takeRand_reg (q : Reg) : (s.takeRand).reg q = s.reg q := rfl
@[simp] theorem State.takeRand_spInt : (s.takeRand).spInt = s.spInt := rfl

/-! ### takeSample -/

@[simp] theorem State.takeSample_V : (s.takeSample).V = s.V := rfl
@[simp] theorem State.takeSample_I : (s.takeSample).I = s.I := rfl
@[simp] theorem State.takeSample_pc : (s.takeSample).pc = s.pc := rfl
@[simp] theorem State.takeSample_stack : (s.takeSample).stack = s.stack := rfl
@[simp] theorem State.takeSample_sp : (s.takeSample).sp = s.sp := rfl
@[simp] theorem State.takeSample_DT : (s.takeSample).DT = s.DT := rfl
@[simp] theorem State.takeSample_ST : (s.takeSample).ST = s.ST := rfl
@[simp] theorem State.takeSample_keys : (s.takeSample).keys = s.keys := rfl
@[simp] theorem State.takeSample_mem : (s.takeSample).mem = s.mem := rfl
@[simp] theorem State.takeSample_pix : (s.takeSample).pix = s.pix := rfl
@[simp] theorem State.takeSample_dirty : (s.takeSample).dirty = s.dirty := rfl
@[simp] theorem State.takeSample_accCpu : (s.takeSample).accCpu = s.accCpu := rfl
@[simp] theorem State.takeSample_accTimer : (s.takeSample).accTimer = s.accTimer := rfl
@[simp] theorem State.takeSample_fault : (s.takeSample).fault = s.fault := rfl
@[simp] theorem State.takeSample_rate : (s.takeSample).rate = s.rate := rfl
@[simp] theorem State.takeSample_phase : (s.takeSample).phase = s.phase := rfl
@[simp] theorem State.takeSample_out : (s.takeSample).out = s.out := rfl
@[simp] theorem State.takeSample_reg (q : Reg) : (s.takeSample).reg q = s.reg q := rfl
@[simp] theorem State.takeSample_spInt : (s.takeSample).spInt = s.spInt := rfl

/-! ### refreshKeys -/

@[simp] theorem State.refreshKeys_inputs : (s.refreshKeys).inputs = s.takeSample.inputs := rfl

@[simp] theorem State.refreshKeys_V : (s.refreshKeys).V = s.V := rfl
@[simp] theorem State.refreshKeys_I : (s.refreshKeys).I = s.I := rfl
@[simp] theorem State.refreshKeys_pc : (s.refreshKeys).pc = s.pc := rfl
@[simp] theorem State.refreshKeys_stack : (s.refreshKeys).stack = s.stack := rfl
@[simp] theorem State.refreshKeys_sp : (s.refreshKeys).sp = s.sp := rfl
@[simp] theorem State.refreshKeys_DT : (s.refreshKeys).DT = s.DT := rfl
@[simp] theorem State.refreshKeys_ST : (s.refreshKeys).ST = s.ST := rfl
@[simp] theorem State.refreshKeys_keys : (s.refreshKeys).keys = s.nextKeys := rfl
@[simp] theorem State.refreshKeys_mem : (s.refreshKeys).mem = s.mem := rfl
@[simp] theorem State.refreshKeys_pix : (s.refreshKeys).pix = s.pix := rfl
@[simp] theorem State.refreshKeys_dirty : (s.refreshKeys).dirty = s.dirty := rfl
@[simp] theorem State.refreshKeys_accCpu : (s.refreshKeys).accCpu = s.accCpu := rfl
@[simp] theorem State.refreshKeys_accTimer : (s.refreshKeys).accTimer = s.accTimer := rfl
@[simp] theorem State.refreshKeys_fault : (s.refreshKeys).fault = s.fault := rfl
@[simp] theorem State.refreshKeys_rate : (s.refreshKeys).rate = s.rate := rfl
@[simp] theorem State.refreshKeys_phase : (s.refreshKeys).phase = s.phase := rfl
@[simp] theorem State.refreshKeys_out : (s.refreshKeys).out = s.out := rfl
@[simp] theorem State.refreshKeys_reg (q : Reg) : (s.refreshKeys).reg q = s.reg q := rfl
@[simp] theorem State.refreshKeys_spInt : (s.refreshKeys).spInt = s.spInt := rfl

/-! ### advancePc -/

@[simp] theorem State.advancePc_V : (s.advancePc).V = s.V := rfl
@[simp] theorem State.advancePc_I : (s.advancePc).I = s.I := rfl
@[simp] theorem State.advancePc_pc : (s.advancePc).pc = s.pc + 2#16 := rfl
@[simp] theorem State.advancePc_stack : (s.advancePc).stack = s.stack := rfl
@[simp] theorem State.advancePc_sp : (s.advancePc).sp = s.sp := rfl
@[simp] theorem State.advancePc_DT : (s.advancePc).DT = s.DT := rfl
@[simp] theorem State.advancePc_ST : (s.advancePc).ST = s.ST := rfl
@[simp] theorem State.advancePc_keys : (s.advancePc).keys = s.keys := rfl
@[simp] theorem State.advancePc_mem : (s.advancePc).mem = s.mem := rfl
@[simp] theorem State.advancePc_pix : (s.advancePc).pix = s.pix := rfl
@[simp] theorem State.advancePc_dirty : (s.advancePc).dirty = s.dirty := rfl
@[simp] theorem State.advancePc_accCpu : (s.advancePc).accCpu = s.accCpu := rfl
@[simp] theorem State.advancePc_accTimer : (s.advancePc).accTimer = s.accTimer := rfl
@[simp] theorem State.advancePc_fault : (s.advancePc).fault = s.fault := rfl
@[simp] theorem State.advancePc_rate : (s.advancePc).rate = s.rate := rfl
@[simp] theorem State.advancePc_phase : (s.advancePc).phase = s.phase := rfl
@[simp] theorem State.advancePc_inputs : (s.advancePc).inputs = s.inputs := rfl
@[simp] theorem State.advancePc_out : (s.advancePc).out = s.out := rfl
@[simp] theorem State.advancePc_reg (q : Reg) : (s.advancePc).reg q = s.reg q := rfl
@[simp] theorem State.advancePc_spInt : (s.advancePc).spInt = s.spInt := rfl

/-! ### skip -/

@[simp] theorem State.skip_V : (s.skip).V = s.V := rfl
@[simp] theorem State.skip_I : (s.skip).I = s.I := rfl
@[simp] theorem State.skip_pc : (s.skip).pc = s.pc + 2#16 := rfl
@[simp] theorem State.skip_stack : (s.skip).stack = s.stack := rfl
@[simp] theorem State.skip_sp : (s.skip).sp = s.sp := rfl
@[simp] theorem State.skip_DT : (s.skip).DT = s.DT := rfl
@[simp] theorem State.skip_ST : (s.skip).ST = s.ST := rfl
@[simp] theorem State.skip_keys : (s.skip).keys = s.keys := rfl
@[simp] theorem State.skip_mem : (s.skip).mem = s.mem := rfl
@[simp] theorem State.skip_pix : (s.skip).pix = s.pix := rfl
@[simp] theorem State.skip_dirty : (s.skip).dirty = s.dirty := rfl
@[simp] theorem State.skip_accCpu : (s.skip).accCpu = s.accCpu := rfl
@[simp] theorem State.skip_accTimer : (s.skip).accTimer = s.accTimer := rfl
@[simp] theorem State.skip_fault : (s.skip).fault = s.fault := rfl
@[simp] theorem State.skip_rate : (s.skip).rate = s.rate := rfl
@[simp] theorem State.skip_phase : (s.skip).phase = s.phase := rfl
@[simp] theorem State.skip_inputs : (s.skip).inputs = s.inputs := rfl
@[simp] theorem State.skip_out : (s.skip).out = s.out := rfl
@[simp] theorem State.skip_reg (q : Reg) : (s.skip).reg q = s.reg q := rfl
@[simp] theorem State.skip_spInt : (s.skip).spInt = s.spInt := rfl

/-! ### Two writes of one register, and the registers by number -/

@[simp] theorem State.reg_setReg_self (r : Reg) (v : Byte) : (s.setReg r v).reg r = v := by
  simp [State.reg, State.setReg]

@[simp] theorem State.reg_setReg_of_ne (v : Byte) {r q : Reg} (h : q ≠ r) : (s.setReg r v).reg q = s.reg q := by
  have h' : r.val ≠ q.val := fun e => h (Fin.ext e.symm)
  simp [State.reg, State.setReg, Vector.getElem_set_ne, h']

theorem State.reg_setReg (r q : Reg) (v : Byte) : (s.setReg r v).reg q = if q = r then v else s.reg q := by
  by_cases h : q = r
  · subst h; simp
  · simp [h]

/-- A state is one whose fields agree; used to close a frame. -/
theorem State.setReg_eq_with (r : Reg) (v : Byte) : s.setReg r v = { s with V := (s.setReg r v).V } := rfl

/-- The flag-writing update: VF holds the flag whatever `x` is. -/
@[simp] theorem State.reg_setRegFlag_vF (x : Reg) (v : Byte) (f : Bool) : (s.setRegFlag x v f).reg vF = flagByte f := by
  simp [State.setRegFlag]

/-- The result is in `Vx`, unless `x` is F. -/
theorem State.reg_setRegFlag_dest {x : Reg} (h : x ≠ vF) (v : Byte) (f : Bool) : (s.setRegFlag x v f).reg x = v := by
  simp [State.setRegFlag, h]

/-- No other register is written. -/
theorem State.reg_setRegFlag_other {x q : Reg} (hx : q ≠ x) (hf : q ≠ vF) (v : Byte) (f : Bool) :
    (s.setRegFlag x v f).reg q = s.reg q := by
  simp [State.setRegFlag, hx, hf]

/-- Only `V` is written. -/
theorem State.setRegFlag_eq_with (x : Reg) (v : Byte) (f : Bool) :
    s.setRegFlag x v f = { s with V := (s.setRegFlag x v f).V } := rfl

/-- A skip writes `pc` alone, by 2 or not at all. -/
theorem State.skipIf_eq (c : Bool) : s.skipIf c = s.setPc (if c then s.pc + 2#16 else s.pc) := by
  cases c <;> rfl

/-! ### What the ports answer: the head of the script, or past its end the free value at the count -/

theorem State.nextPoll_nil (h : s.inputs.iterations = []) : s.nextPoll = Config.pollAnswer s.inputs.iterationsDone := by
  rw [State.nextPoll, h]

theorem State.nextPoll_cons {it : Iteration} {rest} (h : s.inputs.iterations = it :: rest) : s.nextPoll = it.cont := by
  rw [State.nextPoll, h]

theorem State.nextElapsed_nil (h : s.inputs.iterations = []) : s.nextElapsed = Config.elapsed s.inputs.iterationsDone := by
  rw [State.nextElapsed, h]

theorem State.nextElapsed_cons {it : Iteration} {rest} (h : s.inputs.iterations = it :: rest) : s.nextElapsed = it.dt := by
  rw [State.nextElapsed, h]

theorem State.nextKeys_nil (h : s.inputs.keySamples = []) : s.nextKeys = Config.keySample s.inputs.samplesDone := by
  rw [State.nextKeys, h]

theorem State.nextKeys_cons {k : BitVec 16} {rest} (h : s.inputs.keySamples = k :: rest) : s.nextKeys = k := by
  rw [State.nextKeys, h]

end Sys2Proof.Machine
end

