-- ==== Sys2Proof/Laws/Display.lean ====
section
/-! SUPPORT. The display: a flipped pixel, and what a whole draw does to each pixel and to the collision bit. -/

namespace Sys2Proof.Machine

/-- The grids are equal when every pixel is. -/
theorem Grid.ext_pixel {g h : Grid} (e : ∀ r c, g.pixel r c = h.pixel r c) : g = h := by
  apply Vector.ext
  intro r hr
  apply Vector.ext
  intro c hc
  have := e r c
  simpa [Grid.pixel, hr, hc] using this

@[simp] theorem Grid.pixel_blank (r c : Nat) : blankGrid.pixel r c = false := by
  simp [Grid.pixel, blankGrid]

theorem Grid.pixel_outside (g : Grid) {r c : Nat} (h : ¬ (r < Config.dispH ∧ c < Config.dispW)) : g.pixel r c = false := by
  simp only [Grid.pixel, h, dite_false]

/-- A flip changes the one pixel, if it is on the display. -/
theorem Grid.pixel_flip (g : Grid) (r c r' c' : Nat) :
    (g.flip r c).pixel r' c' =
      (g.pixel r' c' ^^ decide (r' = r ∧ c' = c ∧ r < Config.dispH ∧ c < Config.dispW)) := by
  by_cases h : r < Config.dispH ∧ c < Config.dispW
  · by_cases h' : r' < Config.dispH ∧ c' < Config.dispW
    · simp only [Grid.flip, h, Grid.pixel, h', and_self, dite_true, and_true]
      by_cases hr : r' = r
      · subst hr
        by_cases hc : c' = c
        · subst hc; simp
        · simp [hc, Ne.symm hc]
      · simp [hr, Ne.symm hr]
    · rw [Grid.pixel_outside _ h', Grid.pixel_outside _ h']
      simp only [Bool.false_xor, Bool.false_eq, decide_eq_false_iff_not]
      rintro ⟨rfl, rfl, h1, h2⟩
      exact h' ⟨h1, h2⟩
  · rw [Grid.flip, dif_neg h]
    have : ¬ (r' = r ∧ c' = c ∧ r < Config.dispH ∧ c < Config.dispW) := fun e => h e.2.2
    simp [this]

/-- The sprite bit that falls on column `col` of a row drawn from column `x0`: position `col - x0` from the left, bit 7 leftmost
(44_display.md R148). -/
def spriteBit (b : Byte) (x0 col : Nat) : Bool := decide (x0 ≤ col ∧ col < x0 + 8) && b.getLsbD (7 - (col - x0))

/-- The sprite bit that falls on a pixel of the display; false where the sprite has none or it is clipped
(44_display.md R146, R147). -/
def spriteCovers (rows : List Byte) (x0 y0 row col : Nat) : Bool :=
  decide (y0 ≤ row ∧ row < Config.dispH ∧ col < Config.dispW) &&
    ((rows[row - y0]?).map (spriteBit · x0 col)).getD false

/-- One sprite bit: the pixel it falls on is flipped, if it is on the display. -/
theorem drawPixel_pixel (x0 row : Nat) (b : Byte) (d : Drawing) (k r c : Nat) (hrow : row < Config.dispH) :
    (drawPixel x0 row b d k).grid.pixel r c =
      (d.grid.pixel r c ^^ decide (r = row ∧ c < Config.dispW ∧ c = x0 + k ∧ b.getLsbD (7 - k) = true)) := by
  unfold drawPixel
  split
  · have : ¬ (r = row ∧ c < Config.dispW ∧ c = x0 + k ∧ b.getLsbD (7 - k) = true) := by
      rintro ⟨-, h1, h2, -⟩; omega
    simp [this]
  · split
    · rename_i h1 h2
      rw [Grid.pixel_flip]
      congr 1
      apply decide_eq_decide.2
      constructor
      · rintro ⟨h3, h4, -, h5⟩; exact ⟨h3, h4 ▸ h5, h4, h2⟩
      · rintro ⟨h3, h4, h5, -⟩; exact ⟨h3, h5, hrow, h5 ▸ h4⟩
    · rename_i h1 h2
      simp [h2]

/-- The bits of one sprite row, at distinct positions. -/
theorem drawBits_pixel (x0 row : Nat) (b : Byte) (ks : List Nat) (hn : ks.Nodup) (d : Drawing) (r c : Nat)
    (hrow : row < Config.dispH) :
    (ks.foldl (drawPixel x0 row b) d).grid.pixel r c =
      (d.grid.pixel r c ^^
        decide (r = row ∧ c < Config.dispW ∧ ∃ k ∈ ks, c = x0 + k ∧ b.getLsbD (7 - k) = true)) := by
  induction ks generalizing d with
  | nil => simp
  | cons k ks ih =>
    rw [List.nodup_cons] at hn
    rw [List.foldl_cons, ih hn.2, drawPixel_pixel _ _ _ _ _ _ _ hrow, Bool.xor_assoc]
    congr 1
    by_cases hr : r = row ∧ c < Config.dispW
    · by_cases hk : c = x0 + k
      · have hno : ¬ ∃ k' ∈ ks, c = x0 + k' ∧ b.getLsbD (7 - k') = true := by
          rintro ⟨k', hk', e, -⟩
          exact hn.1 ((by omega : k' = k) ▸ hk')
        have hall : (∃ k' ∈ k :: ks, c = x0 + k' ∧ b.getLsbD (7 - k') = true) ↔ b.getLsbD (7 - k) = true := by
          rw [List.exists_mem_cons_iff]
          exact ⟨fun h => h.elim (·.2) fun h' => absurd h' hno, fun h => .inl ⟨hk, h⟩⟩
        simp only [hr, hno, and_false, decide_false, Bool.xor_false, true_and, hall]
        simp [hk]
      · simp [hk]
    · have h1 : ∀ P : Prop, ¬ (r = row ∧ c < Config.dispW ∧ P) := fun P h => hr ⟨h.1, h.2.1⟩
      simp only [h1, decide_false, Bool.xor_false]

/-- Their collisions are those with the grid before the row. -/
theorem drawBits_coll (x0 row : Nat) (b : Byte) (ks : List Nat) (hn : ks.Nodup) (d : Drawing)
    (hrow : row < Config.dispH) :
    (ks.foldl (drawPixel x0 row b) d).coll = true ↔
      d.coll = true ∨
        ∃ k ∈ ks, x0 + k < Config.dispW ∧ b.getLsbD (7 - k) = true ∧ d.grid.pixel row (x0 + k) = true := by
  induction ks generalizing d with
  | nil => simp
  | cons k ks ih =>
    rw [List.nodup_cons] at hn
    rw [List.foldl_cons, ih hn.2]
    have hpix : ∀ k' ∈ ks, (drawPixel x0 row b d k).grid.pixel row (x0 + k') = d.grid.pixel row (x0 + k') := by
      intro k' hk'
      have hne : k' ≠ k := fun e => hn.1 (e ▸ hk')
      rw [drawPixel_pixel _ _ _ _ _ _ _ hrow]
      have : ¬ (row = row ∧ x0 + k' < Config.dispW ∧ x0 + k' = x0 + k ∧ b.getLsbD (7 - k) = true) := by
        rintro ⟨-, -, h, -⟩; omega
      rw [decide_eq_false this, Bool.xor_false]
    have hcoll : (drawPixel x0 row b d k).coll = true ↔
        d.coll = true ∨ (x0 + k < Config.dispW ∧ b.getLsbD (7 - k) = true ∧ d.grid.pixel row (x0 + k) = true) := by
      unfold drawPixel
      split
      · rename_i h; simp [show ¬ (x0 + k < Config.dispW) by omega]
      · split
        · rename_i h1 h2; simp [show x0 + k < Config.dispW by omega, h2]
        · rename_i h1 h2; simp [h2]
    rw [hcoll, or_assoc]
    refine or_congr_right ?_
    simp only [List.mem_cons, exists_eq_or_imp]
    refine or_congr_right ⟨?_, ?_⟩
    · rintro ⟨k', hk', h1, h2, h3⟩; exact ⟨k', hk', h1, h2, hpix k' hk' ▸ h3⟩
    · rintro ⟨k', hk', h1, h2, h3⟩; exact ⟨k', hk', h1, h2, (hpix k' hk').symm ▸ h3⟩

/-- A position from the left and a column are the same bit. -/
theorem spriteBit_iff (b : Byte) (x0 col : Nat) :
    spriteBit b x0 col = true ↔ ∃ k ∈ [0, 1, 2, 3, 4, 5, 6, 7], col = x0 + k ∧ b.getLsbD (7 - k) = true := by
  simp only [spriteBit, Bool.and_eq_true, decide_eq_true_eq]
  constructor
  · rintro ⟨⟨h1, h2⟩, h3⟩
    refine ⟨col - x0, ?_, by omega, h3⟩
    have : col - x0 < 8 := by omega
    generalize col - x0 = k at this
    interval_cases k <;> simp
  · rintro ⟨k, hk, rfl, h⟩
    have : k < 8 := by
      simp only [List.mem_cons, List.not_mem_nil, or_false] at hk
      omega
    refine ⟨⟨by omega, by omega⟩, ?_⟩
    rwa [show x0 + k - x0 = k by omega]

theorem drawRow_pixel (x0 row : Nat) (b : Byte) (d : Drawing) (r c : Nat) (hrow : row < Config.dispH) :
    (drawRow x0 row b d).grid.pixel r c =
      (d.grid.pixel r c ^^ (decide (r = row ∧ c < Config.dispW) && spriteBit b x0 c)) := by
  rw [drawRow, drawBits_pixel _ _ _ _ (by decide) _ _ _ hrow]
  congr 1
  rw [Bool.eq_iff_iff]
  simp only [decide_eq_true_eq, Bool.and_eq_true, spriteBit_iff, and_assoc]

theorem drawRow_coll (x0 row : Nat) (b : Byte) (d : Drawing) (hrow : row < Config.dispH) :
    (drawRow x0 row b d).coll = true ↔
      d.coll = true ∨ ∃ c, c < Config.dispW ∧ spriteBit b x0 c = true ∧ d.grid.pixel row c = true := by
  rw [drawRow, drawBits_coll _ _ _ _ (by decide) _ hrow]
  refine or_congr_right ⟨?_, ?_⟩
  · rintro ⟨k, hk, h1, h2, h3⟩
    exact ⟨x0 + k, h1, (spriteBit_iff _ _ _).2 ⟨k, hk, rfl, h2⟩, h3⟩
  · rintro ⟨c, h1, h2, h3⟩
    obtain ⟨k, hk, rfl, h4⟩ := (spriteBit_iff _ _ _).1 h2
    exact ⟨k, hk, h1, h4, h3⟩

theorem spriteCovers_cons (b : Byte) (bs : List Byte) (x0 y0 r c : Nat) (hy : y0 < Config.dispH) :
    spriteCovers (b :: bs) x0 y0 r c =
      (if r = y0 then decide (c < Config.dispW) && spriteBit b x0 c else spriteCovers bs x0 (y0 + 1) r c) := by
  unfold spriteCovers
  by_cases hr : r = y0
  · subst hr; simp [hy]
  · by_cases h : y0 ≤ r
    · have h1 : r - y0 = (r - (y0 + 1)) + 1 := by omega
      rw [if_neg hr, h1, List.getElem?_cons_succ]
      simp [h, show y0 + 1 ≤ r by omega]
    · simp [h, hr, show ¬ y0 + 1 ≤ r by omega]

theorem spriteCovers_below (rows : List Byte) (x0 y0 r c : Nat) (h : Config.dispH ≤ y0) :
    spriteCovers rows x0 y0 r c = false := by
  simp only [spriteCovers, Bool.and_eq_false_iff, decide_eq_false_iff_not]
  left; omega

theorem spriteCovers_above (rows : List Byte) (x0 y0 r c : Nat) (h : r < y0) : spriteCovers rows x0 y0 r c = false := by
  simp only [spriteCovers, Bool.and_eq_false_iff, decide_eq_false_iff_not]
  left; omega

/-- What a draw leaves in each pixel: exclusive or with the sprite bit that falls on it. -/
theorem drawRows_pixel (x0 : Nat) (rows : List Byte) (y0 : Nat) (d : Drawing) (r c : Nat) :
    (drawRows x0 y0 d rows).grid.pixel r c = (d.grid.pixel r c ^^ spriteCovers rows x0 y0 r c) := by
  induction rows generalizing y0 d with
  | nil => simp [drawRows, spriteCovers]
  | cons b bs ih =>
    unfold drawRows
    split
    · rename_i h; simp [spriteCovers_below _ _ _ _ _ h]
    · rename_i h
      have hy : y0 < Config.dispH := by omega
      rw [ih, drawRow_pixel _ _ _ _ _ _ hy, spriteCovers_cons _ _ _ _ _ _ hy]
      by_cases hr : r = y0
      · simp [hr, spriteCovers_above]
      · simp [hr]

/-- When a draw collides: some sprite bit falls on a pixel that was set before the draw. -/
theorem drawRows_coll (x0 : Nat) (rows : List Byte) (y0 : Nat) (d : Drawing) :
    (drawRows x0 y0 d rows).coll = true ↔
      d.coll = true ∨ ∃ r c, spriteCovers rows x0 y0 r c = true ∧ d.grid.pixel r c = true := by
  induction rows generalizing y0 d with
  | nil => simp [drawRows, spriteCovers]
  | cons b bs ih =>
    unfold drawRows
    split
    · rename_i h; simp [spriteCovers_below _ _ _ _ _ h]
    · rename_i h
      have hy : y0 < Config.dispH := by omega
      rw [ih, drawRow_coll _ _ _ _ hy, or_assoc]
      refine or_congr_right ⟨?_, ?_⟩
      · rintro (⟨c, h1, h2, h3⟩ | ⟨r, c, h1, h2⟩)
        · exact ⟨y0, c, by simp [spriteCovers_cons _ _ _ _ _ _ hy, h1, h2], h3⟩
        · have hr : r ≠ y0 := by
            rintro rfl
            rw [spriteCovers_above _ _ _ _ _ (Nat.lt_succ_self r)] at h1
            cases h1
          rw [drawRow_pixel _ _ _ _ _ _ hy] at h2
          exact ⟨r, c, by simpa [spriteCovers_cons _ _ _ _ _ _ hy, hr] using h1, by simpa [hr] using h2⟩
      · rintro ⟨r, c, h1, h2⟩
        rw [spriteCovers_cons _ _ _ _ _ _ hy] at h1
        by_cases hr : r = y0
        · subst hr
          simp only [if_true, Bool.and_eq_true, decide_eq_true_eq] at h1
          exact .inl ⟨c, h1.1, h1.2, h2⟩
        · rw [if_neg hr] at h1
          exact .inr ⟨r, c, h1, by simpa [drawRow_pixel _ _ _ _ _ _ hy, hr] using h2⟩

theorem drawSprite_pixel (g : Grid) (x0 y0 : Byte) (rows : List Byte) (r c : Nat) :
    (drawSprite g x0 y0 rows).grid.pixel r c = (g.pixel r c ^^ spriteCovers rows x0.toNat y0.toNat r c) :=
  drawRows_pixel _ _ _ _ _ _

theorem drawSprite_coll (g : Grid) (x0 y0 : Byte) (rows : List Byte) :
    (drawSprite g x0 y0 rows).coll = true ↔
      ∃ r c, spriteCovers rows x0.toNat y0.toNat r c = true ∧ g.pixel r c = true := by
  simpa [drawSprite] using drawRows_coll x0.toNat rows y0.toNat { grid := g, coll := false }

end Sys2Proof.Machine
end

