-- ==== Sys2Proof/Laws/Encoding.lean ====
section
/-! SUPPORT. Fields of an encoded word, and bytes of a word, by their values as numbers. -/

namespace Sys2Proof

theorem toNat_appendBits {n m : Nat} (a : BitVec n) (b : BitVec m) : (a ++ b).toNat = a.toNat * 2 ^ m + b.toNat := by
  rw [BitVec.toNat_append, ← Nat.shiftLeft_add_eq_or_of_lt b.isLt, Nat.shiftLeft_eq]

theorem toNat_encodeNNN (t : Nibble) (nnn : Addr12) : (encodeNNN t nnn).toNat = t.toNat * 4096 + nnn.toNat :=
  toNat_appendBits t nnn

theorem toNat_digit (r : Fin 16) : (digit r).toNat = r.val := rfl

theorem toNat_encodeXKK (t : Nibble) (x : Reg) (kk : Byte) :
    (encodeXKK t x kk).toNat = t.toNat * 4096 + x.val * 256 + kk.toNat := by
  have h1 := toNat_appendBits (t ++ digit x) kk
  have h2 := toNat_appendBits t (digit x)
  rw [toNat_digit] at h2
  have h : (encodeXKK t x kk).toNat = (t ++ digit x ++ kk).toNat := rfl
  omega

theorem toNat_wordOfDigits (t x y n : Nibble) :
    (wordOfDigits t x y n).toNat = t.toNat * 4096 + x.toNat * 256 + y.toNat * 16 + n.toNat := by
  have h1 := toNat_appendBits (t ++ x ++ y) n
  have h2 := toNat_appendBits (t ++ x) y
  have h3 := toNat_appendBits t x
  have h : (wordOfDigits t x y n).toNat = (t ++ x ++ y ++ n).toNat := rfl
  omega

theorem toNat_encodeXYN (t : Nibble) (x y : Reg) (n : Nibble) :
    (encodeXYN t x y n).toNat = t.toNat * 4096 + x.val * 256 + y.val * 16 + n.toNat :=
  toNat_wordOfDigits t (digit x) (digit y) n

theorem toNat_typeNibble (w : Word) : (typeNibble w).toNat = w.toNat / 4096 := by
  have := w.isLt
  simp only [typeNibble, BitVec.extractLsb'_toNat, Nat.shiftRight_eq_div_pow]
  omega

theorem val_fieldX (w : Word) : (fieldX w).val = w.toNat / 256 % 16 := by
  have h : (fieldX w).val = (w.extractLsb' 8 4).toNat := rfl
  rw [h, BitVec.extractLsb'_toNat, Nat.shiftRight_eq_div_pow]

theorem val_fieldY (w : Word) : (fieldY w).val = w.toNat / 16 % 16 := by
  have h : (fieldY w).val = (w.extractLsb' 4 4).toNat := rfl
  rw [h, BitVec.extractLsb'_toNat, Nat.shiftRight_eq_div_pow]

theorem toNat_fieldN (w : Word) : (fieldN w).toNat = w.toNat % 16 := by
  simp [fieldN, BitVec.extractLsb'_toNat]

theorem toNat_fieldKK (w : Word) : (fieldKK w).toNat = w.toNat % 256 := by
  simp [fieldKK, BitVec.extractLsb'_toNat]

theorem toNat_fieldNNN (w : Word) : (fieldNNN w).toNat = w.toNat % 4096 := by
  simp [fieldNNN, BitVec.extractLsb'_toNat]

@[simp] theorem typeNibble_encodeNNN (t : Nibble) (nnn : Addr12) : typeNibble (encodeNNN t nnn) = t := by
  apply BitVec.eq_of_toNat_eq
  have := t.isLt; have := nnn.isLt
  rw [toNat_typeNibble, toNat_encodeNNN]; omega

@[simp] theorem fieldNNN_encodeNNN (t : Nibble) (nnn : Addr12) : fieldNNN (encodeNNN t nnn) = nnn := by
  apply BitVec.eq_of_toNat_eq
  have := nnn.isLt
  rw [toNat_fieldNNN, toNat_encodeNNN]; omega

@[simp] theorem typeNibble_encodeXKK (t : Nibble) (x : Reg) (kk : Byte) : typeNibble (encodeXKK t x kk) = t := by
  apply BitVec.eq_of_toNat_eq
  have := t.isLt; have := x.isLt; have := kk.isLt
  rw [toNat_typeNibble, toNat_encodeXKK]; omega

@[simp] theorem fieldX_encodeXKK (t : Nibble) (x : Reg) (kk : Byte) : fieldX (encodeXKK t x kk) = x := by
  apply Fin.ext
  have := x.isLt; have := kk.isLt
  rw [val_fieldX, toNat_encodeXKK]; omega

@[simp] theorem fieldKK_encodeXKK (t : Nibble) (x : Reg) (kk : Byte) : fieldKK (encodeXKK t x kk) = kk := by
  apply BitVec.eq_of_toNat_eq
  have := kk.isLt
  rw [toNat_fieldKK, toNat_encodeXKK]; omega

@[simp] theorem typeNibble_encodeXYN (t : Nibble) (x y : Reg) (n : Nibble) : typeNibble (encodeXYN t x y n) = t := by
  apply BitVec.eq_of_toNat_eq
  have := t.isLt; have := x.isLt; have := y.isLt; have := n.isLt
  rw [toNat_typeNibble, toNat_encodeXYN]; omega

@[simp] theorem fieldX_encodeXYN (t : Nibble) (x y : Reg) (n : Nibble) : fieldX (encodeXYN t x y n) = x := by
  apply Fin.ext
  have := x.isLt; have := y.isLt; have := n.isLt
  rw [val_fieldX, toNat_encodeXYN]; omega

@[simp] theorem fieldY_encodeXYN (t : Nibble) (x y : Reg) (n : Nibble) : fieldY (encodeXYN t x y n) = y := by
  apply Fin.ext
  have := y.isLt; have := n.isLt
  rw [val_fieldY, toNat_encodeXYN]; omega

@[simp] theorem fieldN_encodeXYN (t : Nibble) (x y : Reg) (n : Nibble) : fieldN (encodeXYN t x y n) = n := by
  apply BitVec.eq_of_toNat_eq
  have := n.isLt
  rw [toNat_fieldN, toNat_encodeXYN]; omega

@[simp] theorem toFin_digit (r : Fin 16) : (digit r).toFin = r := rfl

/-- A word is its type nibble and its `nnn`. -/
theorem encodeNNN_fields (w : Word) : encodeNNN (typeNibble w) (fieldNNN w) = w := by
  apply BitVec.eq_of_toNat_eq
  rw [toNat_encodeNNN, toNat_typeNibble, toNat_fieldNNN]; omega

/-- A word is its type nibble, its `x` and its `kk`. -/
theorem encodeXKK_fields (w : Word) : encodeXKK (typeNibble w) (fieldX w) (fieldKK w) = w := by
  apply BitVec.eq_of_toNat_eq
  rw [toNat_encodeXKK, toNat_typeNibble, val_fieldX, toNat_fieldKK]; omega

/-- A word is its four digits. -/
theorem encodeXYN_fields (w : Word) : encodeXYN (typeNibble w) (fieldX w) (fieldY w) (fieldN w) = w := by
  apply BitVec.eq_of_toNat_eq
  rw [toNat_encodeXYN, toNat_typeNibble, val_fieldX, val_fieldY, toNat_fieldN]; omega

/-! ### The masks of the opcode map keep whole fields -/

theorem mask_F000 (w : Word) : w &&& 0xF000#16 = encodeNNN (typeNibble w) 0x000#12 := by
  have h : w &&& 0xF000#16 = encodeNNN (typeNibble w) (fieldNNN w) &&& encodeNNN 0xF#4 0x000#12 := by
    rw [encodeNNN_fields]; rfl
  rw [h]
  change (typeNibble w ++ fieldNNN w : BitVec (4 + 12)) &&& (0xF#4 ++ 0x000#12) = typeNibble w ++ 0x000#12
  rw [BitVec.and_append]
  congr 1
  · exact BitVec.and_allOnes
  · exact BitVec.and_zero

theorem mask_00FF (w : Word) : (w &&& 0x00FF#16).toNat = (fieldKK w).toNat := by
  rw [toNat_fieldKK, BitVec.toNat_and]
  exact Nat.and_two_pow_sub_one_eq_mod _ 8

theorem mask_000F (w : Word) : (w &&& 0x000F#16).toNat = (fieldN w).toNat := by
  rw [toNat_fieldN, BitVec.toNat_and]
  exact Nat.and_two_pow_sub_one_eq_mod _ 4

theorem mask_F0FF (w : Word) : w &&& 0xF0FF#16 = encodeXKK (typeNibble w) 0 (fieldKK w) := by
  have e : (0xF0FF#16 : Word) = 0xF000#16 ||| 0x00FF#16 := rfl
  have d : (w &&& 0xF000#16) &&& (w &&& 0x00FF#16) = 0 := by
    have : (w &&& 0xF000#16) &&& (w &&& 0x00FF#16) = (w &&& w) &&& (0xF000#16 &&& 0x00FF#16) := by ac_rfl
    rw [this]
    exact BitVec.and_zero
  rw [e, BitVec.and_or_distrib_left, ← BitVec.add_eq_or_of_and_eq_zero _ _ d]
  apply BitVec.eq_of_toNat_eq
  have h1 := mask_00FF w
  have h2 := congrArg BitVec.toNat (mask_F000 w)
  rw [toNat_encodeNNN] at h2
  have h3 := (typeNibble w).isLt
  have h4 := (fieldKK w).isLt
  rw [BitVec.toNat_add, h1, h2, toNat_encodeXKK]
  simp only [BitVec.toNat_ofNat, Fin.val_zero]
  omega

theorem mask_F00F (w : Word) : w &&& 0xF00F#16 = encodeXYN (typeNibble w) 0 0 (fieldN w) := by
  have e : (0xF00F#16 : Word) = 0xF000#16 ||| 0x000F#16 := rfl
  have d : (w &&& 0xF000#16) &&& (w &&& 0x000F#16) = 0 := by
    have : (w &&& 0xF000#16) &&& (w &&& 0x000F#16) = (w &&& w) &&& (0xF000#16 &&& 0x000F#16) := by ac_rfl
    rw [this]
    exact BitVec.and_zero
  rw [e, BitVec.and_or_distrib_left, ← BitVec.add_eq_or_of_and_eq_zero _ _ d]
  apply BitVec.eq_of_toNat_eq
  have h1 := mask_000F w
  have h2 := congrArg BitVec.toNat (mask_F000 w)
  rw [toNat_encodeNNN] at h2
  have h3 := (typeNibble w).isLt
  have h4 := (fieldN w).isLt
  rw [BitVec.toNat_add, h1, h2, toNat_encodeXYN]
  simp only [BitVec.toNat_ofNat, Fin.val_zero]
  omega

/-- The two bytes of a word, put together again. -/
@[simp] theorem wordOfBytes_bytesOfWord (w : Word) : wordOfBytes (bytesOfWord w).1 (bytesOfWord w).2 = w := by
  apply BitVec.eq_of_toNat_eq
  have h := toNat_appendBits (bytesOfWord w).1 (bytesOfWord w).2
  have h1 : (bytesOfWord w).1.toNat = w.toNat / 256 % 256 := by
    simp [bytesOfWord, BitVec.extractLsb'_toNat, Nat.shiftRight_eq_div_pow]
  have h2 : (bytesOfWord w).2.toNat = w.toNat % 256 := by
    simp [bytesOfWord, BitVec.extractLsb'_toNat]
  have h3 : (wordOfBytes (bytesOfWord w).1 (bytesOfWord w).2).toNat = ((bytesOfWord w).1 ++ (bytesOfWord w).2).toNat := rfl
  have := w.isLt
  omega

/-- The decoder reads from a table word the instruction of its 16 bits. -/
theorem decodeTableWord_eq (nbits w : Nat) : decodeTableWord nbits w = some (decode (tableWord nbits w)) := by
  simp [decodeTableWord, decodeBytes]

end Sys2Proof
end

