-- ==== Sys2Proof/Laws/Memory.lean ====
section
/-! SUPPORT. Memory: a read after a write, the canonical form, slices. -/

namespace Sys2Proof.Machine

theorem Memory.wf_iff (m : Memory) : m.wf = true ↔ m.Wf := by simp [Memory.wf]

@[simp] theorem Memory.read_entry_self (a : Nat) (v : Byte) (m : Memory)
    (h : ∀ c ∈ m, a < c.1) : (Memory.entry a v m).read a = v := by
  unfold Memory.entry
  split
  · rename_i hv
    induction m with
    | nil => simp [Memory.read, hv]
    | cons c m ih =>
      have h1 := h c (by simp)
      simp only [Memory.read, if_neg (by omega : a ≠ c.1)]
      exact ih fun d hd => h d (by simp [hd])
  · simp [Memory.read]

@[simp] theorem Memory.read_entry_of_ne {a b : Nat} (h : b ≠ a) (v : Byte) (m : Memory) :
    (Memory.entry a v m).read b = m.read b := by
  unfold Memory.entry
  split <;> simp [Memory.read, h]

/-- A write leaves every other address alone. -/
@[simp] theorem Memory.read_write_of_ne {a b : Nat} (h : b ≠ a) (m : Memory) (v : Byte) :
    (m.write a v).read b = m.read b := by
  induction m with
  | nil => simp [Memory.write, h]
  | cons c m ih =>
    simp only [Memory.write]
    split
    · simp [h]
    · split
      · rename_i h2
        simp [h, Memory.read, show b ≠ c.1 by omega]
      · simp only [Memory.read, ih]

/-- A read after a write to the same address gives the value written. -/
@[simp] theorem Memory.read_write_self {m : Memory} (hm : m.Pairwise (fun c d => c.1 < d.1)) (a : Nat) (v : Byte) :
    (m.write a v).read a = v := by
  induction m with
  | nil => simp [Memory.write]
  | cons c m ih =>
    rw [List.pairwise_cons] at hm
    simp only [Memory.write]
    split
    · rename_i h
      apply Memory.read_entry_self
      intro d hd
      rcases List.mem_cons.1 hd with rfl | hd
      · exact h
      · exact lt_trans h (hm.1 d hd)
    · split
      · rename_i h
        exact Memory.read_entry_self _ _ _ fun d hd => h ▸ hm.1 d hd
      · rename_i h1 h2
        simp only [Memory.read, if_neg h2]
        exact ih hm.2

/-- Every entry of a written memory is the new one or an old one. -/
theorem Memory.mem_write {m : Memory} {a : Nat} {v : Byte} {c : Host.Cell} (h : c ∈ m.write a v) :
    (c = (a, v) ∧ v ≠ resetByte a) ∨ c ∈ m := by
  induction m with
  | nil =>
    simp only [Memory.write, Memory.entry] at h
    split at h <;> simp_all
  | cons d m ih =>
    simp only [Memory.write, Memory.entry] at h
    split at h
    · split at h <;> simp_all
    · split at h
      · split at h
        · exact .inr (List.mem_cons_of_mem _ h)
        · rcases List.mem_cons.1 h with rfl | h
          · exact .inl ⟨rfl, by assumption⟩
          · exact .inr (List.mem_cons_of_mem _ h)
      · rcases List.mem_cons.1 h with rfl | h
        · exact .inr (by simp)
        · rcases ih h with h | h
          · exact .inl h
          · exact .inr (List.mem_cons_of_mem _ h)

theorem Memory.pairwise_write {m : Memory} (hm : m.Pairwise (fun c d => c.1 < d.1)) (a : Nat) (v : Byte) :
    (m.write a v).Pairwise (fun c d => c.1 < d.1) := by
  induction m with
  | nil =>
    simp only [Memory.write, Memory.entry]
    split <;> simp
  | cons d m ih =>
    have hm' := hm
    rw [List.pairwise_cons] at hm
    simp only [Memory.write, Memory.entry]
    split
    · rename_i h
      split
      · exact hm'
      · refine List.pairwise_cons.2 ⟨fun c hc => ?_, hm'⟩
        rcases List.mem_cons.1 hc with rfl | hc
        · exact h
        · exact lt_trans h (hm.1 c hc)
    · split
      · rename_i h
        split
        · exact hm.2
        · exact List.pairwise_cons.2 ⟨fun c hc => h ▸ hm.1 c hc, hm.2⟩
      · rename_i h1 h2
        refine List.pairwise_cons.2 ⟨fun c hc => ?_, ih hm.2⟩
        rcases Memory.mem_write hc with ⟨rfl, -⟩ | hc
        · simp only; omega
        · exact hm.1 c hc

/-- A write below 4096 keeps the canonical form. -/
theorem Memory.wf_write {m : Memory} (hm : m.Wf) {a : Nat} (ha : a < Config.memSize) (v : Byte) : (m.write a v).Wf := by
  refine ⟨Memory.pairwise_write hm.1 a v, fun c hc => ?_⟩
  rcases Memory.mem_write hc with ⟨rfl, hv⟩ | hc
  · exact ⟨ha, hv⟩
  · exact hm.2 c hc

/-- So does a slice of writes below 4096. -/
theorem Memory.wf_writeSlice {m : Memory} (hm : m.Wf) {a : Nat} {vs : List Byte}
    (h : a + vs.length ≤ Config.memSize) : (m.writeSlice a vs).Wf := by
  induction vs generalizing m a with
  | nil => exact hm
  | cons v vs ih =>
    simp only [List.length_cons] at h
    exact ih (Memory.wf_write hm (by omega) v) (by omega)

@[simp] theorem Memory.length_readSlice (m : Memory) (a n : Nat) : (m.readSlice a n).length = n := by
  induction n generalizing a with
  | zero => rfl
  | succ n ih => simp [Memory.readSlice, ih]

/-- Byte `k` of a slice is the byte at `a + k`. -/
theorem Memory.getElem?_readSlice (m : Memory) (a n k : Nat) :
    (m.readSlice a n)[k]? = if k < n then some (m.read (a + k)) else none := by
  induction n generalizing a k with
  | zero => simp [Memory.readSlice]
  | succ n ih =>
    cases k with
    | zero => simp [Memory.readSlice]
    | succ k => simp [Memory.readSlice, ih, Nat.add_assoc, Nat.add_comm 1 k]

/-- Outside the slice a slice of writes changes nothing. -/
theorem Memory.read_writeSlice_outside (m : Memory) {a b : Nat} {vs : List Byte}
    (h : b < a ∨ a + vs.length ≤ b) : (m.writeSlice a vs).read b = m.read b := by
  induction vs generalizing m a with
  | nil => rfl
  | cons v vs ih =>
    simp only [List.length_cons] at h
    rw [Memory.writeSlice, ih _ (by omega), Memory.read_write_of_ne (by omega)]

/-- Inside it, byte `k` of the list is read back. -/
theorem Memory.read_writeSlice_inside {m : Memory} (hm : m.Pairwise (fun c d => c.1 < d.1)) (a : Nat) (vs : List Byte)
    {k : Nat} (hk : k < vs.length) : (m.writeSlice a vs).read (a + k) = vs[k] := by
  induction vs generalizing m a k with
  | nil => simp at hk
  | cons v vs ih =>
    cases k with
    | zero =>
      rw [Memory.writeSlice, Memory.read_writeSlice_outside _ (by omega)]
      simp [hm]
    | succ k =>
      have := ih (Memory.pairwise_write hm a v) (a + 1) (k := k) (by simpa using hk)
      simpa [Memory.writeSlice, Nat.add_assoc, Nat.add_comm 1 k] using this

/-- When `n` bytes at `I` all exist. -/
theorem State.badAddress_eq_none_iff (s : State) (n : Nat) :
    s.badAddress n = none ↔ n = 0 ∨ s.I.toNat + n ≤ Config.memSize := by
  unfold State.badAddress
  split <;> simp <;> omega

/-- The offending address is the highest of the range. -/
theorem State.badAddress_eq_some_iff (s : State) (n addr : Nat) :
    s.badAddress n = some addr ↔ 0 < n ∧ Config.memSize ≤ s.I.toNat + n - 1 ∧ addr = s.I.toNat + n - 1 := by
  unfold State.badAddress
  split <;> simp <;> omega

/-- All a load can do. -/
theorem State.loadBytes_cases (s : State) (n : Nat) :
    (s.loadBytes n = .ok (s.mem.readSlice s.I.toNat n) ∧ (n = 0 ∨ s.I.toNat + n ≤ Config.memSize)) ∨
    (s.loadBytes n = .error (s.I.toNat + n - 1) ∧ 0 < n ∧ Config.memSize ≤ s.I.toNat + n - 1) := by
  unfold State.loadBytes
  cases h : s.badAddress n with
  | none => exact .inl ⟨rfl, (s.badAddress_eq_none_iff n).1 h⟩
  | some addr =>
    obtain ⟨h1, h2, rfl⟩ := (s.badAddress_eq_some_iff n addr).1 h
    exact .inr ⟨rfl, h1, h2⟩

/-- All a store can do. -/
theorem State.storeBytes_cases (s : State) (vs : List Byte) :
    (s.storeBytes vs = .ok (s.setMem (s.mem.writeSlice s.I.toNat vs)) ∧
      (vs.length = 0 ∨ s.I.toNat + vs.length ≤ Config.memSize)) ∨
    (s.storeBytes vs = .error (s.I.toNat + vs.length - 1) ∧ 0 < vs.length ∧
      Config.memSize ≤ s.I.toNat + vs.length - 1) := by
  unfold State.storeBytes
  cases h : s.badAddress vs.length with
  | none => exact .inl ⟨rfl, (s.badAddress_eq_none_iff _).1 h⟩
  | some addr =>
    obtain ⟨h1, h2, rfl⟩ := (s.badAddress_eq_some_iff _ addr).1 h
    exact .inr ⟨rfl, h1, h2⟩

@[simp] theorem State.length_regsUpTo (s : State) (x : Reg) : (s.regsUpTo x).length = x.val + 1 := by
  simp [State.regsUpTo]

/-- Byte `k` of `V0` to `Vx` is `Vk`. -/
theorem State.getElem?_regsUpTo (s : State) (x q : Reg) (h : q ≤ x) : (s.regsUpTo x)[q.val]? = some (s.reg q) := by
  have hq : q.val < x.val + 1 := by have := Fin.le_def.1 h; omega
  simp [State.regsUpTo, State.reg, hq]

/-- Registers written from a list: register `j` takes byte `j - k`. -/
theorem getElem_writeRegs (V : Vector Byte 16) (k : Nat) (bs : List Byte) (j : Nat) (hj : j < 16) :
    (writeRegs V k bs)[j] = if k ≤ j then (bs[j - k]?).getD V[j] else V[j] := by
  induction bs generalizing V k with
  | nil => simp [writeRegs]
  | cons b bs ih =>
    rw [writeRegs, ih]
    by_cases h1 : k + 1 ≤ j
    · have : j - k = (j - (k + 1)) + 1 := by omega
      simp [h1, show k ≤ j by omega, this, show k ≠ j by omega]
    · by_cases h2 : k = j
      · subst h2; simp
      · simp [h1, show ¬ k ≤ j by omega, h2]

end Sys2Proof.Machine
end

