-- ==== Sys2Proof/Laws/PerInstr.lean ====
section
/-! SUPPORT. Laws stated of every instruction as syntax, one lemma per constructor. -/

namespace Sys2Proof.Laws.TypeNibble

/-- The first digit of the encoded word is the first digit of the row's pattern (30_encoding.md R77). -/
def Statement (i : Instr) : Prop := typeNibble (encode i) = i.typeDigit

theorem nop0 : Statement .nop0 := by
  unfold Statement
  decide

theorem cls : Statement .cls := by
  unfold Statement
  decide

theorem ret : Statement .ret := by
  unfold Statement
  decide

theorem sys (nnn : Addr12) : Statement (.sys nnn) := typeNibble_encodeNNN _ _

theorem jp (nnn : Addr12) : Statement (.jp nnn) := typeNibble_encodeNNN _ _

theorem call (nnn : Addr12) : Statement (.call nnn) := typeNibble_encodeNNN _ _

theorem seImm (x : Reg) (kk : Byte) : Statement (.seImm x kk) := typeNibble_encodeXKK _ _ _

theorem sneImm (x : Reg) (kk : Byte) : Statement (.sneImm x kk) := typeNibble_encodeXKK _ _ _

theorem seReg (x y : Reg) (low : Nibble) : Statement (.seReg x y low) := typeNibble_encodeXYN _ _ _ _

theorem ldImm (x : Reg) (kk : Byte) : Statement (.ldImm x kk) := typeNibble_encodeXKK _ _ _

theorem addImm (x : Reg) (kk : Byte) : Statement (.addImm x kk) := typeNibble_encodeXKK _ _ _

theorem ldReg (x y : Reg) : Statement (.ldReg x y) := typeNibble_encodeXYN _ _ _ _

theorem orReg (x y : Reg) : Statement (.orReg x y) := typeNibble_encodeXYN _ _ _ _

theorem andReg (x y : Reg) : Statement (.andReg x y) := typeNibble_encodeXYN _ _ _ _

theorem xorReg (x y : Reg) : Statement (.xorReg x y) := typeNibble_encodeXYN _ _ _ _

theorem addReg (x y : Reg) : Statement (.addReg x y) := typeNibble_encodeXYN _ _ _ _

theorem sub (x y : Reg) : Statement (.sub x y) := typeNibble_encodeXYN _ _ _ _

theorem shr (x y : Reg) : Statement (.shr x y) := typeNibble_encodeXYN _ _ _ _

theorem subn (x y : Reg) : Statement (.subn x y) := typeNibble_encodeXYN _ _ _ _

theorem shl (x y : Reg) : Statement (.shl x y) := typeNibble_encodeXYN _ _ _ _

theorem sneReg (x y : Reg) (low : Nibble) : Statement (.sneReg x y low) := typeNibble_encodeXYN _ _ _ _

theorem ldI (nnn : Addr12) : Statement (.ldI nnn) := typeNibble_encodeNNN _ _

theorem jpV0 (nnn : Addr12) : Statement (.jpV0 nnn) := typeNibble_encodeNNN _ _

theorem rnd (x : Reg) (kk : Byte) : Statement (.rnd x kk) := typeNibble_encodeXKK _ _ _

theorem drw (x y : Reg) (n : Count) : Statement (.drw x y n) := typeNibble_encodeXYN _ _ _ _

theorem skp (x : Reg) : Statement (.skp x) := typeNibble_encodeXKK _ _ _

theorem sknp (x : Reg) : Statement (.sknp x) := typeNibble_encodeXKK _ _ _

theorem ldVxDt (x : Reg) : Statement (.ldVxDt x) := typeNibble_encodeXKK _ _ _

theorem ldVxK (x : Reg) : Statement (.ldVxK x) := typeNibble_encodeXKK _ _ _

theorem ldDtVx (x : Reg) : Statement (.ldDtVx x) := typeNibble_encodeXKK _ _ _

theorem ldStVx (x : Reg) : Statement (.ldStVx x) := typeNibble_encodeXKK _ _ _

theorem addI (x : Reg) : Statement (.addI x) := typeNibble_encodeXKK _ _ _

theorem ldF (x : Reg) : Statement (.ldF x) := typeNibble_encodeXKK _ _ _

theorem ldB (x : Reg) : Statement (.ldB x) := typeNibble_encodeXKK _ _ _

theorem ldMemVx (x : Reg) : Statement (.ldMemVx x) := typeNibble_encodeXKK _ _ _

theorem ldVxMem (x : Reg) : Statement (.ldVxMem x) := typeNibble_encodeXKK _ _ _

theorem unknown (w : Word) : Statement (.unknown w) := rfl

end Sys2Proof.Laws.TypeNibble
end

