-- ==== Sys2Proof/Laws/Time.lean ====
section
/-! SUPPORT. The written-out rational operations are `+`, `-` and `≤`, and the times of the scheduler are what they should be. -/

namespace Sys2Proof.Machine

@[simp] theorem timeAdd_eq (a b : Rat) : timeAdd a b = a + b := by
  rw [timeAdd, Rat.add_def']

@[simp] theorem timeSub_eq (a b : Rat) : timeSub a b = a - b := by
  rw [timeSub, Rat.sub_def']

@[simp] theorem timeReached_eq (a p : Rat) : timeReached a p = decide (p ≤ a) := by
  simp [timeReached, Rat.le_iff]

theorem Elapsed.seconds_eq (e : Elapsed) : e.seconds = e.num / e.den := by
  rw [Elapsed.seconds, Rat.mkRat_eq_div, Int.cast_natCast]

theorem elapsed_nonneg (e : Elapsed) : 0 ≤ e.seconds := by
  rw [Elapsed.seconds, Rat.mkRat_eq_div]
  positivity

theorem cpuPeriod_eq (rate : Nat) : cpuPeriod rate = 1 / (rate : Rat) := by
  simp [cpuPeriod, Rat.mkRat_eq_div]

theorem timerPeriod_eq : timerPeriod = 1 / 60 := by
  norm_num [timerPeriod, Rat.mkRat_eq_div]

/-- The time `withFetchWord` supplies completes a CPU period. -/
theorem missingTime_completes (acc : Rat) (rate : Nat) : cpuPeriod rate ≤ acc + (missingTime acc rate).seconds := by
  have key : cpuPeriod rate - acc ≤ (missingTime acc rate).seconds := by
    simp only [missingTime, Elapsed.seconds, timeSub_eq, Rat.mkRat_eq_div]
    generalize cpuPeriod rate - acc = d
    have h : (d.num : Rat) ≤ ((d.num.toNat : Int) : Rat) := by exact_mod_cast Int.self_le_toNat d.num
    calc d = (d.num : Rat) / (d.den : Rat) := (Rat.num_div_den d).symm
      _ ≤ _ := by gcongr
  linarith

end Sys2Proof.Machine
end

