-- ==== Sys2Proof/Laws/Step.lean ====
section
/-! SUPPORT. What a push, a pop, a tick, an iteration and a step can do, said once. -/

namespace Sys2Proof.Machine

/-- All a push can do. -/
theorem State.push_cases (s : State) (v : Word) :
    (s.sp = some 15 ∧ s.push v = none) ∨
    (∃ k : Fin 16, (k.val : Int) = s.spInt + 1 ∧ s.push v = some { s with sp := some k, stack := s.stack.set k.val v }) := by
  unfold State.push State.spInt
  cases h : s.sp with
  | none => exact .inr ⟨0, by simp, rfl⟩
  | some k =>
    by_cases hk : k.val + 1 < 16
    · refine .inr ⟨⟨k.val + 1, hk⟩, by simp, ?_⟩
      simp [nextEntry, hk]
    · have : k = 15 := by apply Fin.ext; have := k.isLt; simp only [Fin.isValue, show (15 : Fin 16).val = 15 from rfl]; omega
      subst this
      exact .inl ⟨rfl, rfl⟩

/-- All a pop can do. -/
theorem State.pop_cases (s : State) :
    (s.sp = none ∧ s.pop = none) ∨
    (∃ k : Fin 16, s.sp = some k ∧ s.pop = some (s.stack[k.val], { s with sp := entryBelow k })) := by
  unfold State.pop
  cases h : s.sp with
  | none => exact .inl ⟨rfl, rfl⟩
  | some k => exact .inr ⟨k, rfl, rfl⟩

/-- The entry below, as an integer. -/
theorem spInt_entryBelow (s : State) (k : Fin 16) : ({ s with sp := entryBelow k } : State).spInt = (k.val : Int) - 1 := by
  unfold State.spInt entryBelow
  by_cases h : k.val = 0
  · simp [h]
  · simp only [h, if_false]; omega

/-- A `present` leaves a clean display, and writes nothing but `dirty` and the port. -/
theorem State.present_eq (s : State) : s.present =
    { s with dirty := false, out := if s.dirty then .render s.pix :: s.out else s.out } := by
  unfold State.present
  cases h : s.dirty
  · cases s; simp_all
  · rfl

/-- A `timer_tick` writes the two timers and the port. -/
theorem State.timerTick_eq (s : State) : s.timerTick =
    { s with DT := s.DT - (if s.DT = 0#8 then 0#8 else 1#8)
             ST := s.ST - (if s.ST = 0#8 then 0#8 else 1#8)
             out := if s.ST = 0#8 then s.out else .beep :: s.out } := by
  unfold State.timerTick State.tickDelay State.tickSound
  by_cases h1 : s.DT = 0#8 <;> by_cases h2 : s.ST = 0#8 <;> cases s <;> simp_all [State.setDT, State.setST, State.emit]

/-- All the timer's half of an iteration can do. -/
theorem State.timerPhase_cases (s : State) :
    (timerPeriod ≤ s.accTimer ∧ s.timerPhase = { s.timerTick with accTimer := s.accTimer - timerPeriod }) ∨
    (s.accTimer < timerPeriod ∧ s.timerPhase = s) := by
  unfold State.timerPhase
  by_cases h : timerPeriod ≤ s.accTimer
  · exact .inl ⟨h, by simp [h]⟩
  · exact .inr ⟨lt_of_not_ge h, by simp [h]⟩

/-- All a CPU tick can do. -/
theorem cpuTick_cases (s : State) :
    (s.fetchable = false ∧ cpuTick s = .fault (.fetchRange s.pc)) ∨
    (s.fetchable = true ∧ cpuTick s = exec (decode s.fetchWord) s.refreshKeys.advancePc) := by
  unfold cpuTick
  cases h : s.fetchable
  · exact .inl ⟨rfl, rfl⟩
  · exact .inr ⟨rfl, rfl⟩

/-- All the CPU's half of an iteration can do when it answers a next state. -/
theorem cpuPhase_next {s t : State} (h : cpuPhase s = .next t) :
    (s.accCpu < cpuPeriod s.rate ∧ t = s) ∨
    (cpuPeriod s.rate ≤ s.accCpu ∧ ∃ f, cpuTick s = .fault f ∧ t = s.discardSample.takeFault f) ∨
    (cpuPeriod s.rate ≤ s.accCpu ∧ ∃ u, cpuTick s = .next u ∧ t = u.finishTick) := by
  unfold cpuPhase at h
  by_cases hp : cpuPeriod s.rate ≤ s.accCpu
  · simp only [timeReached_eq, hp, decide_true, if_true] at h
    right
    cases hc : cpuTick s with
    | next u => rw [hc] at h; exact .inr ⟨hp, u, rfl, by simpa using h.symm⟩
    | fault f => rw [hc] at h; exact .inl ⟨hp, f, rfl, by simpa using h.symm⟩
    | refused r => rw [hc] at h; cases h
  · simp only [timeReached_eq, hp, decide_false, Bool.false_eq_true, if_false] at h
    exact .inl ⟨lt_of_not_ge hp, by simpa using h.symm⟩

/-- A discarded sample writes the input ports alone. -/
theorem State.discardSample_eq (s : State) : s.discardSample =
    { s with inputs := if s.fetchable then s.takeSample.inputs else s.inputs } := by
  unfold State.discardSample
  cases s.fetchable <;> rfl

/-- The start of a run writes `phase` and the port, and only where the run has not started. -/
theorem State.begun_eq {s : State} (h : s.phase ≠ .ended) : s.begun =
    { s with phase := .running, out := if s.phase = .running then s.out else .start :: s.out } := by
  unfold State.begun
  cases hp : s.phase with
  | ready => simp [State.startRun, State.emit]
  | loaded => simp [State.startRun, State.emit]
  | running => cases s; simp_all
  | ended => exact absurd hp h

/-- What a CPU tick begins with: only the timers, the ports, the accumulators and `phase` differ from the state before the step. -/
theorem State.tickStart_eq {s : State} (h : s.phase ≠ .ended) : s.tickStart =
    { s with
      DT := s.tickStart.DT, ST := s.tickStart.ST, out := s.tickStart.out, accCpu := s.accCpu + s.nextElapsed.seconds
      accTimer := s.tickStart.accTimer, phase := .running, inputs := s.takeIteration.inputs } := by
  unfold State.tickStart
  rw [State.begun_eq h]
  rcases State.timerPhase_cases (State.accumulate _ s.nextElapsed.seconds) with ⟨-, e⟩ | ⟨-, e⟩ <;> rw [e]
  · rw [State.timerTick_eq]; simp [State.accumulate, State.takeIteration]
  · simp [State.accumulate, State.takeIteration]

/-- All a step does while the run can go on. -/
theorem step_of_canRun {s : State} (h : s.CanRun) :
    step s = if s.nextPoll then cpuPhase s.tickStart else .next s.begun.takeIteration.endRun := by
  obtain ⟨hf, hr, hp⟩ := h
  have e1 : s.begun.nextPoll = s.nextPoll := by rw [State.begun_eq hp]; rfl
  have e2 : s.begun.nextElapsed = s.nextElapsed := by rw [State.begun_eq hp]; rfl
  have e : step s = schedIteration s.begun := by
    unfold step
    simp only [hf, Nat.pos_iff_ne_zero.1 hr, if_false]
    cases h : s.phase with
    | ended => exact absurd h hp
    | ready => rfl
    | loaded => rfl
    | running => rfl
  rw [e, schedIteration, e1, e2]
  rfl

/-- A step that answers a next state is a step of a run that can go on. -/
theorem canRun_of_step {s t : State} (h : step s = .next t) : s.CanRun := by
  unfold step at h
  cases hf : s.fault with
  | some f => rw [hf] at h; cases h
  | none =>
    rw [hf] at h
    by_cases hr : s.rate = 0
    · simp [hr] at h
    · refine ⟨hf, Nat.pos_of_ne_zero hr, fun hp => ?_⟩
      simp [hr, hp] at h

/-- All a step can do when it answers a next state: the run ends, or the CPU's half of an iteration decides. -/
theorem step_next {s t : State} (h : step s = .next t) :
    s.CanRun ∧
      ((s.nextPoll = false ∧ t = s.begun.takeIteration.endRun) ∨
       (s.nextPoll = true ∧ cpuPhase s.tickStart = .next t)) := by
  have hc := canRun_of_step h
  refine ⟨hc, ?_⟩
  rw [step_of_canRun hc] at h
  cases hq : s.nextPoll
  · rw [hq] at h; exact .inl ⟨rfl, by simpa using h.symm⟩
  · rw [hq] at h; exact .inr ⟨rfl, by simpa using h⟩

/-- A run of one or more steps that reaches a state is a step and the rest of the run. -/
theorem run_succ_next {n : Nat} {s t : State} (h : Host.Core.run Sys2Proof.core (n + 1) s = .next t) :
    ∃ u, step s = .next u ∧ Host.Core.run Sys2Proof.core n u = .next t := by
  simp only [Host.Core.run] at h
  have e : Sys2Proof.core.step s = step s := rfl
  rw [e] at h
  cases hs : step s with
  | next u => rw [hs] at h; exact ⟨u, rfl, h⟩
  | fault f => rw [hs] at h; cases h
  | refused r => rw [hs] at h; cases h

end Sys2Proof.Machine
end

