-- ==== Sys2Proof/Tests/Slice0.lean ====
section
/-! SUPPORT. The model's own tests. Expected results come from spec/: the words from the encodings of 30_encoding.md section 3, the
results from the vectors of 95_test_vectors.md section 2, whose heading a group of tests names. Each theorem `witness_<Name>` shows
that the hypotheses of `Obligations.<Name>` can be met. -/

set_option maxRecDepth 8000

namespace Sys2Proof.Tests

open Sys2Proof.Machine Sys2Proof.Statement

/-! ## Well-formedness (30_encoding.md, groups 0, 8, E and F) -/

theorem test_wf_refuses_sys_of_nop0 : (Instr.sys 0x000#12).wf = false := by decide
theorem test_wf_refuses_sys_of_cls : (Instr.sys 0x0E0#12).wf = false := by decide
theorem test_wf_refuses_sys_of_ret : (Instr.sys 0x0EE#12).wf = false := by decide
theorem test_wf_refuses_unknown_of_a_group_without_selector : (Instr.unknown 0x1234#16).wf = false := by decide
theorem test_wf_refuses_unknown_of_group_8 : (Instr.unknown 0x812E#16).wf = false := by decide
theorem test_wf_refuses_unknown_of_group_E : (Instr.unknown 0xE29E#16).wf = false := by decide
theorem test_wf_refuses_unknown_of_group_F : (Instr.unknown 0xF265#16).wf = false := by decide
theorem test_wf_accepts :
    (Instr.sys 0x001#12).wf = true ∧ (Instr.sys 0xFFF#12).wf = true ∧ (Instr.unknown 0x8008#16).wf = true ∧
      (Instr.unknown 0xFFFF#16).wf = true := by decide

/-! ## Decoding: one word of each instruction, written from its row in 30_encoding.md section 3 -/

theorem test_decode_group0 :
    decode 0x0000#16 = .nop0 ∧ decode 0x00E0#16 = .cls ∧ decode 0x00EE#16 = .ret ∧ decode 0x0001#16 = .sys 0x001#12 ∧
      decode 0x01E0#16 = .sys 0x1E0#12 := by decide
theorem test_decode_jumps :
    decode 0x1234#16 = .jp 0x234#12 ∧ decode 0x2300#16 = .call 0x300#12 ∧ decode 0xB304#16 = .jpV0 0x304#12 := by decide
theorem test_decode_skips :
    decode 0x332A#16 = .seImm 3 0x2A#8 ∧ decode 0x432A#16 = .sneImm 3 0x2A#8 ∧ decode 0x5120#16 = .seReg 1 2 0x0#4 ∧
      decode 0x5ABF#16 = .seReg 10 11 0xF#4 ∧ decode 0x9AB7#16 = .sneReg 10 11 0x7#4 := by decide
theorem test_decode_immediates :
    decode 0x6A2F#16 = .ldImm 10 0x2F#8 ∧ decode 0x7105#16 = .addImm 1 0x05#8 ∧ decode 0xC30F#16 = .rnd 3 0x0F#8 ∧
      decode 0xA2F0#16 = .ldI 0x2F0#12 := by decide
theorem test_decode_group8 :
    decode 0x8120#16 = .ldReg 1 2 ∧ decode 0x8121#16 = .orReg 1 2 ∧ decode 0x8122#16 = .andReg 1 2 ∧
      decode 0x8123#16 = .xorReg 1 2 ∧ decode 0x8124#16 = .addReg 1 2 ∧ decode 0x8125#16 = .sub 1 2 ∧
      decode 0x8126#16 = .shr 1 2 ∧ decode 0x8127#16 = .subn 1 2 ∧ decode 0x812E#16 = .shl 1 2 := by decide
theorem test_decode_draw_and_keys :
    decode 0xD12F#16 = .drw 1 2 15 ∧ decode 0xE29E#16 = .skp 2 ∧ decode 0xE2A1#16 = .sknp 2 := by decide
theorem test_decode_groupF :
    decode 0xF407#16 = .ldVxDt 4 ∧ decode 0xF30A#16 = .ldVxK 3 ∧ decode 0xF415#16 = .ldDtVx 4 ∧ decode 0xF418#16 = .ldStVx 4 ∧
      decode 0xF21E#16 = .addI 2 ∧ decode 0xF429#16 = .ldF 4 ∧ decode 0xF533#16 = .ldB 5 ∧ decode 0xF255#16 = .ldMemVx 2 ∧
      decode 0xF165#16 = .ldVxMem 1 := by decide
theorem test_decode_unknown :
    decode 0x8AB9#16 = .unknown 0x8AB9#16 ∧ decode 0xE29F#16 = .unknown 0xE29F#16 ∧ decode 0xF030#16 = .unknown 0xF030#16 := by
  decide
/-- Two bytes, the high one first, and the rest of the list. -/
theorem test_decode_bytes :
    decodeBytes [0x12#8, 0x34#8, 0x56#8] = .ok (.jp 0x234#12, [0x56#8]) ∧ decodeBytes [0x12#8] = .error .truncated := by decide
theorem test_encode_fields :
    encode (.drw 1 2 5) = 0xD125#16 ∧ encode (.sknp 14) = 0xEEA1#16 ∧ encode (.ldB 5) = 0xF533#16 ∧
      encode (.call 0x300#12) = 0x2300#16 ∧ encode (.sneReg 10 11 0x7#4) = 0x9AB7#16 := by decide

/-! ## Small states -/

/-- On entry to the instruction at 0x200, reset otherwise. -/
def entry : State := { State.reset with pc := 0x202#16 }

/-- The same with some registers set. -/
def regs (l : List (Reg × Byte)) : State := l.foldl (fun s p => s.setReg p.1 p.2) entry

/-- Bytes in memory at an address. -/
def put (s : State) (a : Nat) (bs : List Byte) : State := { s with mem := s.mem.writeSlice a bs }

/-- `I` set. -/
def atI (s : State) (a : Word) : State := { s with I := a }

/-- The result of the instruction a word is. -/
def runWord (w : Word) (s : State) : Result := exec (decode w) s

/-- A property of a next state. -/
def nextWith (r : Result) (p : State → Bool) : Bool :=
  match r with
  | .next t => p t
  | _ => false

/-- A result is a fault that records this. -/
def faultIs (r : Result) (f : Fault) : Bool :=
  match r with
  | .fault g => g == f
  | _ => false

theorem exists_next {r : Result} {p : State → Bool} (h : nextWith r p = true) : ∃ t, r = .next t ∧ p t = true := by
  cases r with
  | next t => exact ⟨t, rfl, h⟩
  | fault f => cases h
  | refused e => cases h

theorem eq_fault {r : Result} {f : Fault} (h : faultIs r f = true) : r = .fault f := by
  cases r with
  | next t => cases h
  | fault g => exact congrArg _ (eq_of_beq h)
  | refused e => cases h

/-! ## 2.1 Flow, no-ops, unknown opcodes -/

theorem test_nop0 : nextWith (runWord 0x0000#16 entry) (fun t => t.pc == 0x202#16 && t.out == []) = true := by decide
theorem test_sys : nextWith (runWord 0x01E0#16 entry) (fun t => t.pc == 0x202#16 && t.out == [.diag 0x01E0#16]) = true := by
  decide
theorem test_unknown : nextWith (runWord 0x8AB9#16 entry) (fun t => t.pc == 0x202#16 && t.out == [.diag 0x8AB9#16]) = true := by
  decide
theorem test_ret :
    nextWith (runWord 0x00EE#16 { entry with sp := some 0, stack := entry.stack.set 0 0x0ABC#16 })
      (fun t => t.pc == 0xABC#16 && t.spInt == -1) = true := by decide
theorem test_ret_empty : faultIs (runWord 0x00EE#16 entry) (.stackUnderflow 0x200#16 0x00EE#16) = true := by decide
theorem test_jp : nextWith (runWord 0x1201#16 entry) (fun t => t.pc == 0x201#16) = true := by decide
/-- The example of 40_flow.md on CALL. -/
theorem test_call :
    nextWith (runWord 0x2300#16 entry) (fun t => t.pc == 0x300#16 && t.spInt == 0 && t.stack[0] == 0x202#16) = true := by decide
/-- 95_test_vectors.md, P5. -/
theorem test_call_full :
    faultIs (runWord 0x2200#16 { entry with sp := some 15 }) (.stackOverflow 0x200#16 0x2200#16) = true := by decide
/-- The example of 40_flow.md on Bnnn, and the largest sum. -/
theorem test_jpV0 :
    nextWith (runWord 0xB300#16 (regs [(0, 0x04#8)])) (fun t => t.pc == 0x304#16) = true ∧
      nextWith (runWord 0xBFFF#16 (regs [(0, 0xFF#8)])) (fun t => t.pc == 0x10FE#16) = true := by decide

/-! ## 2.2 Skips -/

theorem test_seImm :
    nextWith (runWord 0x3AFF#16 (regs [(10, 0xFF#8)])) (fun t => t.pc == 0x204#16) = true ∧
      nextWith (runWord 0x3A01#16 entry) (fun t => t.pc == 0x202#16) = true := by decide
theorem test_sneImm :
    nextWith (runWord 0x4A00#16 entry) (fun t => t.pc == 0x202#16) = true ∧
      nextWith (runWord 0x4A01#16 entry) (fun t => t.pc == 0x204#16) = true := by decide
theorem test_seReg :
    nextWith (runWord 0x5ABF#16 (regs [(10, 5#8), (11, 5#8)])) (fun t => t.pc == 0x204#16) = true ∧
      nextWith (runWord 0x5AB0#16 (regs [(10, 5#8), (11, 6#8)])) (fun t => t.pc == 0x202#16) = true := by decide
theorem test_sneReg :
    nextWith (runWord 0x9AB7#16 (regs [(10, 5#8), (11, 6#8)])) (fun t => t.pc == 0x204#16) = true ∧
      nextWith (runWord 0x9AA0#16 (regs [(10, 9#8)])) (fun t => t.pc == 0x202#16) = true := by decide

/-! ## 2.3 Load, arithmetic, logic, shift, random -/

theorem test_ldImm : nextWith (runWord 0x6FAB#16 entry) (fun t => t.reg 15 == 0xAB#8 && t.pc == 0x202#16) = true := by decide
theorem test_addImm :
    nextWith (runWord 0x7101#16 (regs [(1, 0xFF#8)])) (fun t => t.reg 1 == 0x00#8 && t.reg 15 == 0x00#8) = true ∧
      nextWith (runWord 0x7F01#16 (regs [(15, 0xFF#8)])) (fun t => t.reg 15 == 0x00#8) = true := by decide
theorem test_ldReg :
    nextWith (runWord 0x8120#16 (regs [(1, 0x01#8), (2, 0xEE#8)])) (fun t => t.reg 1 == 0xEE#8 && t.reg 2 == 0xEE#8) = true := by
  decide
theorem test_or :
    nextWith (runWord 0x8121#16 (regs [(1, 0x50#8), (2, 0x05#8), (15, 7#8)])) (fun t => t.reg 1 == 0x55#8 && t.reg 15 == 7#8) =
      true := by decide
theorem test_and :
    nextWith (runWord 0x8122#16 (regs [(1, 0x5C#8), (2, 0x3A#8), (15, 7#8)])) (fun t => t.reg 1 == 0x18#8 && t.reg 15 == 7#8) =
      true := by decide
theorem test_xor :
    nextWith (runWord 0x8123#16 (regs [(1, 0x5C#8), (2, 0x3A#8), (15, 7#8)])) (fun t => t.reg 1 == 0x66#8 && t.reg 15 == 7#8) =
      true := by decide
theorem test_addReg :
    nextWith (runWord 0x8124#16 (regs [(1, 0xC8#8), (2, 0x64#8)])) (fun t => t.reg 1 == 0x2C#8 && t.reg 15 == 1#8) = true ∧
      nextWith (runWord 0x8124#16 (regs [(1, 0xFF#8), (2, 0x00#8), (15, 1#8)]))
        (fun t => t.reg 1 == 0xFF#8 && t.reg 15 == 0#8) = true := by decide
theorem test_addReg_vF :
    nextWith (runWord 0x8F14#16 (regs [(15, 0x10#8), (1, 0x20#8)])) (fun t => t.reg 15 == 0#8) = true ∧
      nextWith (runWord 0x81F4#16 (regs [(1, 0xFF#8), (15, 0x02#8)])) (fun t => t.reg 1 == 0x01#8 && t.reg 15 == 1#8) = true := by
  decide
theorem test_sub :
    nextWith (runWord 0x8125#16 (regs [(1, 10#8), (2, 3#8)])) (fun t => t.reg 1 == 7#8 && t.reg 15 == 1#8) = true ∧
      nextWith (runWord 0x8125#16 (regs [(1, 3#8), (2, 10#8), (15, 1#8)])) (fun t => t.reg 1 == 0xF9#8 && t.reg 15 == 0#8) =
        true := by decide
theorem test_sub_equal :
    nextWith (runWord 0x8125#16 (regs [(1, 7#8), (2, 7#8)])) (fun t => t.reg 1 == 0#8 && t.reg 15 == 1#8) = true ∧
      nextWith (runWord 0x8FF5#16 (regs [(15, 9#8)])) (fun t => t.reg 15 == 1#8) = true := by decide
theorem test_subn :
    nextWith (runWord 0x8127#16 (regs [(1, 3#8), (2, 10#8)])) (fun t => t.reg 1 == 7#8 && t.reg 15 == 1#8) = true ∧
      nextWith (runWord 0x8127#16 (regs [(1, 10#8), (2, 3#8), (15, 1#8)])) (fun t => t.reg 1 == 0xF9#8 && t.reg 15 == 0#8) =
        true := by decide
theorem test_shr :
    nextWith (runWord 0x8126#16 (regs [(1, 0x05#8), (2, 0xFF#8)])) (fun t => t.reg 1 == 0x02#8 && t.reg 15 == 1#8) = true ∧
      nextWith (runWord 0x8F06#16 (regs [(15, 0x02#8)])) (fun t => t.reg 15 == 0#8) = true := by decide
theorem test_shl :
    nextWith (runWord 0x812E#16 (regs [(1, 0x81#8)])) (fun t => t.reg 1 == 0x02#8 && t.reg 15 == 1#8) = true ∧
      nextWith (runWord 0x812E#16 (regs [(1, 0x40#8), (15, 1#8)])) (fun t => t.reg 1 == 0x80#8 && t.reg 15 == 0#8) = true := by
  decide
theorem test_rnd :
    nextWith (runWord 0xC30F#16 { entry with inputs := { freeInputs with randBytes := [0xA7#8, 0x11#8] } })
      (fun t => t.reg 3 == 0x07#8 && t.inputs.randBytes == [0x11#8]) = true := by decide

/-! ## 2.4 Index and memory -/

theorem test_ldI : nextWith (runWord 0xAFFF#16 entry) (fun t => t.I == 0x0FFF#16) = true := by decide
theorem test_addI :
    nextWith (runWord 0xF21E#16 (atI (regs [(2, 2#8), (15, 7#8)]) 0xFFFF#16)) (fun t => t.I == 0x0001#16 && t.reg 15 == 7#8) =
      true := by decide
theorem test_ldF :
    nextWith (runWord 0xF429#16 (regs [(4, 0x10#8)])) (fun t => t.I == 0x00A0#16) = true ∧
      nextWith (runWord 0xF429#16 (regs [(4, 0xFF#8)])) (fun t => t.I == 0x054B#16) = true := by decide
theorem test_ldB :
    nextWith (runWord 0xF533#16 (atI (regs [(5, 137#8)]) 0x300#16))
      (fun t => t.mem.readSlice 0x300 3 == [1#8, 3#8, 7#8] && t.I == 0x300#16) = true := by decide
theorem test_ldB_at_the_end :
    nextWith (runWord 0xF533#16 (atI (regs [(5, 123#8)]) 0xFFD#16)) (fun t => t.mem.readSlice 0xFFD 3 == [1#8, 2#8, 3#8]) =
        true ∧
      faultIs (runWord 0xF533#16 (atI (regs [(5, 123#8)]) 0xFFE#16)) (.memRange 0x200#16 0xF533#16 0x1000) = true := by decide
theorem test_ldMemVx :
    nextWith (runWord 0xF255#16 (atI (regs [(0, 0x11#8), (1, 0x22#8), (2, 0x33#8), (3, 0x44#8)]) 0x400#16))
      (fun t => t.mem == [(0x400, 0x11#8), (0x401, 0x22#8), (0x402, 0x33#8)] && t.I == 0x400#16) = true := by decide
theorem test_ldMemVx_past_the_end :
    faultIs (runWord 0xFF55#16 (atI entry 0xFF1#16)) (.memRange 0x200#16 0xFF55#16 0x1000) = true := by decide
theorem test_ldVxMem :
    nextWith (runWord 0xF165#16 (put (atI (regs [(2, 0x77#8)]) 0x400#16) 0x400 [0xAA#8, 0xBB#8, 0xCC#8]))
      (fun t => t.reg 0 == 0xAA#8 && t.reg 1 == 0xBB#8 && t.reg 2 == 0x77#8 && t.I == 0x400#16) = true := by decide
theorem test_ldVxMem_font :
    nextWith (runWord 0xFF65#16 (atI entry 0x050#16))
      (fun t => t.V.toList == [0xF0#8, 0x90#8, 0x90#8, 0x90#8, 0xF0#8, 0x20#8, 0x60#8, 0x20#8, 0x20#8, 0x70#8, 0xF0#8, 0x10#8,
        0xF0#8, 0x80#8, 0xF0#8, 0xF0#8]) = true := by decide

/-! ## 2.5 Display -/

/-- A blank display with these pixels set. -/
def pixels (ps : List (Nat × Nat)) : Grid := ps.foldl (fun g p => g.flip p.1 p.2) blankGrid

/-- These pixels are set, and those are not. -/
def pixelsAre (g : Grid) (on off : List (Nat × Nat)) : Bool :=
  on.all (fun p => g.pixel p.1 p.2) && off.all (fun p => !g.pixel p.1 p.2)

theorem test_cls :
    nextWith (runWord 0x00E0#16 { entry with pix := pixels [(0, 0), (31, 63)] })
      (fun t => !t.pix.pixel 0 0 && !t.pix.pixel 31 63 && !t.dirty) = true := by decide
/-- Clipped at the right edge; the pixels at the left do not collide. -/
theorem test_drw_right_edge :
    nextWith (runWord 0xD121#16 { put (atI (regs [(1, 62#8)]) 0x300#16) 0x300 [0xFF#8] with pix := pixels [(0, 0), (0, 1)] })
      (fun t => pixelsAre t.pix [(0, 0), (0, 1), (0, 62), (0, 63)] [(0, 2), (0, 61), (1, 62), (1, 0)] && t.reg 15 == 0#8 &&
        t.dirty) = true := by decide
/-- Pixel (0, 1) is turned off. -/
theorem test_drw_collision :
    nextWith (runWord 0xD121#16 { put (atI entry 0x300#16) 0x300 [0xC0#8] with pix := pixels [(0, 1), (0, 2)] })
      (fun t => pixelsAre t.pix [(0, 0), (0, 2)] [(0, 1), (0, 3), (1, 0)] && t.reg 15 == 1#8) = true := by decide

/-! ## 2.6 Keys and timers -/

theorem test_skp :
    nextWith (runWord 0xE29E#16 { regs [(2, 0x0A#8)] with keys := 0x0400#16 }) (fun t => t.pc == 0x204#16) = true ∧
      nextWith (runWord 0xE29E#16 { regs [(2, 0x0A#8)] with keys := 0xFBFF#16 }) (fun t => t.pc == 0x202#16) = true := by decide
theorem test_skp_code :
    faultIs (runWord 0xE29E#16 { regs [(2, 0x10#8)] with keys := 0xFFFF#16 }) (.keyIndex 0x200#16 0xE29E#16 0x10#8) = true := by
  decide
theorem test_sknp :
    nextWith (runWord 0xE2A1#16 (regs [(2, 0x0A#8)])) (fun t => t.pc == 0x204#16) = true ∧
      nextWith (runWord 0xE2A1#16 { regs [(2, 0x0A#8)] with keys := 0x0400#16 }) (fun t => t.pc == 0x202#16) = true := by decide
theorem test_sknp_code : faultIs (runWord 0xE2A1#16 (regs [(2, 0xFF#8)])) (.keyIndex 0x200#16 0xE2A1#16 0xFF#8) = true := by
  decide
theorem test_ldVxDt : nextWith (runWord 0xF407#16 { entry with DT := 0x1E#8 }) (fun t => t.reg 4 == 0x1E#8 && t.DT == 0x1E#8) =
    true := by decide
theorem test_ldDtVx : nextWith (runWord 0xF415#16 (regs [(4, 60#8)])) (fun t => t.DT == 60#8) = true := by decide
theorem test_ldStVx : nextWith (runWord 0xF418#16 (regs [(4, 3#8)])) (fun t => t.ST == 3#8 && t.out == []) = true := by decide
theorem test_ldVxK :
    nextWith (runWord 0xF30A#16 { regs [(3, 9#8)] with keys := 0x0120#16 }) (fun t => t.reg 3 == 5#8 && t.pc == 0x202#16) =
      true := by decide
theorem test_ldVxK_waits :
    nextWith (runWord 0xF30A#16 (regs [(3, 9#8)])) (fun t => t.reg 3 == 9#8 && t.pc == 0x200#16) = true := by decide
theorem test_timerTick :
    (State.timerTick { entry with DT := 1#8, ST := 2#8 }).DT = 0#8 ∧ (State.timerTick { entry with DT := 1#8, ST := 2#8 }).ST = 1#8 ∧
      (State.timerTick { entry with DT := 1#8, ST := 2#8 }).out = [.beep] ∧ State.timerTick entry = entry := by decide

/-! ## Steps -/

/-- 95_test_vectors.md section 4.2, iterations 1 and 2: an elapsed time of 1/20 s, then 0. -/
def gapped : State :=
  { State.reset with inputs := { freeInputs with iterations := [⟨true, ⟨1, 20⟩⟩, ⟨true, ⟨0, 1⟩⟩], keySamples := [0#16, 0#16] } }

theorem test_step_no_catch_up :
    nextWith (step gapped) (fun t => t.accTimer == mkRat 1 30 && t.accCpu == mkRat 24 500 && t.pc == 0x202#16 &&
      nextWith (step t) (fun u => u.accTimer == mkRat 1 60 && u.accCpu == mkRat 23 500)) = true := by decide
/-- The timer is decremented before the instruction reads it (60_exceptions.md section 6). -/
theorem test_step_timer_first :
    nextWith (step { State.withFetchWord { State.reset with DT := 1#8 } 16 0xF107 with accTimer := mkRat 1 60 })
      (fun t => t.DT == 0#8 && t.reg 1 == 0#8) = true := by decide
/-- A faulting tick: `pc` is not advanced, and the key sample is taken and discarded (60_exceptions.md section 5). -/
theorem test_step_fault :
    nextWith (step (State.withFetchWord
        { State.reset with inputs := { freeInputs with keySamples := [0x0120#16, 0x0004#16] } } 16 0x00EE))
      (fun t => t.fault == some (.stackUnderflow 0x200#16 0x00EE#16) && t.pc == 0x200#16 && t.keys == 0#16 &&
        t.inputs.keySamples == [0x0004#16] && t.out == [.start]) = true := by
  decide
/-- The snapshot is overwritten, not merged: 95_test_vectors.md, S11, third tick, with another key held before. -/
theorem test_step_key_sample :
    nextWith (step (State.withFetchWord
        { State.reset with keys := 0x0001#16, inputs := { freeInputs with keySamples := [0x0004#16, 0x8000#16] } } 16 0xF30A))
      (fun t => t.reg 3 == 0x02#8 && t.pc == 0x202#16 && t.keys == 0x0004#16 && t.inputs.keySamples == [0x8000#16] &&
        t.inputs.samplesDone == 1) = true := by decide
/-- 95_test_vectors.md, S1: the last byte of the longest program, and the host's order of 60_exceptions.md section 9. -/
theorem test_load_order :
    (match State.reset.load [0x12#8, 0x00#8] with
      | .ok t => t.mem.readSlice 0x200 2 == [0x12#8, 0x00#8] && (t.load [0x00#8] matches .error .alreadyLoaded) &&
          nextWith (step { t with inputs := { freeInputs with iterations := [⟨true, ⟨0, 1⟩⟩] } })
            (fun u => u.out == [.start] && u.load [0x00#8] matches .error .notBeforeRun)
      | .error _ => false) = true := by decide
/-- A draw is presented in its own iteration (95_test_vectors.md, P3). -/
theorem test_step_presents :
    nextWith (step (State.withFetchWord { State.reset with I := 0x09B#16 } 16 0xD005))
      (fun t => !t.dirty && match t.out with
        | [.render g, .start] => pixelsAre g [(0, 3), (2, 3), (4, 0)] [(1, 3), (0, 4), (5, 0)]
        | _ => false) = true := by decide
theorem test_step_quit :
    nextWith (step { State.reset with inputs := { freeInputs with iterations := [⟨false, ⟨1, 1⟩⟩] } })
      (fun t => t.phase == .ended && t.out == [.stop, .start] && t.accCpu == 0) = true := by decide

/-! ## Witnesses -/

/-- A placed word is run by the next step from reset, so its hypotheses `Ticks` hold. -/
theorem ticks_placed (s : State) (w : Nat) (h : s.phase = .ready) : (s.withFetchWord 16 w).Ticks := by
  refine ⟨⟨rfl, ?_, ?_⟩, rfl, ?_⟩
  · show 0 < if s.rate = 0 then Config.defaultRate else s.rate
    split
    · decide
    · exact Nat.pos_of_ne_zero ‹_›
  · show (if s.phase = .ended then RunPhase.running else s.phase) ≠ .ended
    simp [h]
  · rw [← cpuPeriod_eq]; exact missingTime_completes _ _

theorem witness_DecodeOfEncode :
    (Instr.sys 0x0E1#12).wf = true ∧ (Instr.unknown 0x800F#16).wf = true ∧ (Instr.drw 15 15 15).wf = true := by decide
theorem witness_UnknownWordsListed :
    decode 0x8008#16 = .unknown 0x8008#16 ∧ decode 0x8FFD#16 = .unknown 0x8FFD#16 ∧ decode 0x800F#16 = .unknown 0x800F#16 ∧
      decode 0xE000#16 = .unknown 0xE000#16 ∧ decode 0xFFFF#16 = .unknown 0xFFFF#16 := by decide
theorem witness_NoOpsAndTheirDiag :
    (Instr.sys 0x001#12).wf = true ∧ (Instr.sys 0xFFF#12).wf = true ∧ (Instr.unknown 0x8008#16).wf = true := by decide
theorem witness_JumpSetsPc :
    nextWith (exec (.jp 0xFFF#12) entry) (fun t => !t.fetchable) = true ∧
      nextWith (exec (.jp 0xFFE#12) entry) (fun t => t.fetchable) = true := by decide
theorem witness_CallPushesReturnAddress : entry.spInt ≠ 15 ∧ ({ entry with sp := some 14 } : State).spInt ≠ 15 := by decide
theorem witness_ReturnPopsTopEntry :
    ({ entry with sp := some 0 } : State).sp = some 0 ∧ ({ entry with sp := some 15 } : State).sp = some 15 := by decide
theorem witness_StackAndKeyFaultsRaised :
    ({ entry with sp := some 15 } : State).spInt = 15 ∧ entry.spInt = -1 ∧ 16 ≤ ((regs [(2, 0x10#8)]).reg 2).toNat := by decide
theorem witness_ReturnUndoesCall :
    entry.spInt ≠ 15 ∧ ∃ t u : State, exec (.call 0x300#12) entry = .next t ∧ u.sp = t.sp ∧ u.stack = t.stack ∧ u.pc = 0x302#16 :=
  ⟨by decide, _, { entry with pc := 0x302#16, sp := some 0, stack := entry.stack.set 0 0x202#16 }, rfl, rfl, rfl, rfl⟩
/-- For the clauses of the arithmetic statements on VF, on a destination that is not VF, and on the registers that are neither. -/
theorem witness_AddSetsCarry : (1 : Reg) ≠ vF ∧ (2 : Reg) ≠ 1 ∧ (2 : Reg) ≠ vF := by decide
theorem witness_RandomByteIsMasked :
    ({ entry with inputs := { freeInputs with randBytes := [0xA7#8] } } : State).inputs.randBytes = 0xA7#8 :: [] ∧
      entry.inputs.randBytes = [] ∧ (0x0F#8).getLsbD 7 = false := by decide
theorem witness_DecimalDigitsStored : (atI entry 0xFFD#16).mem.Wf ∧ (atI entry 0xFFD#16).I.toNat + 2 < 4096 := by decide
theorem witness_RegistersStored :
    (atI entry 0xFF0#16).mem.Wf ∧ (atI entry 0xFF0#16).I.toNat + (15 : Reg).val < 4096 := by decide
theorem witness_RegistersLoaded : (atI entry 0xFFF#16).I.toNat + (0 : Reg).val < 4096 ∧ (0 : Reg) ≤ 0 ∧ (0 : Reg) < 15 := by decide
theorem witness_DataRangeFaultsRaised :
    4096 ≤ (atI entry 0xFFE#16).I.toNat + 2 ∧ 4096 ≤ (atI entry 0xFF1#16).I.toNat + (15 : Reg).val ∧
      0 < (2 : Count).val ∧ 4096 ≤ (atI entry 0xFFF#16).I.toNat + (2 : Count).val - 1 := by decide
theorem witness_LoadUndoesStore :
    ∃ t, exec (.ldMemVx 15) (atI entry 0xFF0#16) = .next t ∧ (atI entry 0xFF0#16).mem.Wf ∧
      (atI entry 0xFF0#16).I.toNat + (15 : Reg).val < 4096 ∧ t.mem = t.mem ∧ t.I = (atI entry 0xFF0#16).I :=
  ⟨_, rfl, by decide, by decide, rfl, rfl⟩
theorem witness_FetchSeesStores :
    ∃ t u : State, exec (.ldMemVx 1) (atI entry 0xFFE#16) = .next t ∧ (atI entry 0xFFE#16).mem.Wf ∧ 1 ≤ (1 : Reg).val ∧
      (atI entry 0xFFE#16).I.toNat + (1 : Reg).val < 4096 ∧ u.mem = t.mem ∧ u.pc = (atI entry 0xFFE#16).I :=
  ⟨_, { entry with pc := 0xFFE#16 }, rfl, by decide, by decide, by decide, rfl, rfl⟩
theorem witness_MemoryReadsLastWrite : Memory.Wf [] ∧ 4095 < 4096 ∧ (0 : Nat) ≠ 4095 ∧ Memory.Wf [(0x300, 1#8)] := by decide
theorem witness_CanonicalMemoriesEqual :
    Memory.Wf [(0x300, 1#8)] ∧ Memory.Wf (Memory.write [] 0x300 1#8) ∧
      ∀ a, Memory.read [(0x300, 1#8)] a = Memory.read (Memory.write [] 0x300 1#8) a := ⟨by decide, by decide, fun _ => rfl⟩

/-- A sprite of one row of eight set bits, in the last byte of memory, and one pixel set where it will be drawn. -/
def drawn : State := { put (atI entry 0xFFF#16) 0xFFF [0xFF#8] with pix := pixels [(0, 7)] }

theorem witness_DrawXorsSprite :
    drawn.I.toNat + (1 : Count).val ≤ 4096 ∧ SpriteCovers drawn (drawn.reg 1).toNat (drawn.reg 2).toNat 1 0 7 ∧
      drawn.pix.pixel 0 7 = true ∧ (0 : Count).val = 0 := by decide
/-- Nothing is covered, so nothing set is covered. -/
theorem witness_DrawXorsSprite_no_collision :
    ∀ r c, SpriteCovers entry (entry.reg 1).toNat (entry.reg 2).toNat 0 r c → entry.pix.pixel r c = false := by
  rintro r c ⟨h1, h2, -⟩; omega
theorem witness_DrawingTwiceRestores :
    ∃ t u : State, exec (.drw 1 2 5) (atI entry 0x050#16) = .next t ∧ (atI entry 0x050#16).I.toNat + (5 : Count).val ≤ 4096 ∧
      (atI entry 0x050#16).pix = blankGrid ∧ t.pix ≠ blankGrid ∧ u.mem = (atI entry 0x050#16).mem ∧
      u.I = (atI entry 0x050#16).I ∧ u.pix = t.pix ∧ u.reg 1 = (atI entry 0x050#16).reg 1 ∧
      u.reg 2 = (atI entry 0x050#16).reg 2 := by
  obtain ⟨t, h, hp⟩ := exists_next (r := exec (.drw 1 2 5) (atI entry 0x050#16)) (p := fun t => t.pix.pixel 0 0) (by decide)
  refine ⟨t, { atI entry 0x050#16 with pix := t.pix }, h, by decide, rfl, fun e => ?_, rfl, rfl, rfl, rfl, rfl⟩
  have hb : t.pix.pixel 0 0 = false := by rw [e]; decide
  rw [hb] at hp
  cases hp
theorem witness_PresentSendsDirtyFrame : ({ entry with dirty := true } : State).dirty = true ∧ entry.dirty = false := by decide
theorem witness_KeySkips : ((regs [(2, 0x0F#8)]).reg 2).toNat < 16 := by decide
theorem witness_KeyWaitRewindsOrLoads :
    (∀ k < 16, entry.keys.getLsbD k = false) ∧
      (0x8000#16).getLsbD 15 = true ∧ (∀ j < 15, (0x8000#16).getLsbD j = false) ∧
      (0xFFFF#16).getLsbD 0 = true ∧ (∀ j < 0, (0xFFFF#16).getLsbD j = false) := by decide
theorem witness_EveryInstructionRunsOrFaults :
    FaultsOn .ret entry ∧ FaultsOn (.drw 1 2 2) (atI entry 0xFFF#16) ∧ ¬ FaultsOn (.drw 1 2 0) (atI entry 0xFFFF#16) ∧
      ¬ FaultsOn .cls entry := by
  refine ⟨?_, ?_, ?_, fun h => h⟩
  · show entry.spInt = -1
    decide
  · show 0 < (2 : Count).val ∧ 4096 ≤ (atI entry 0xFFF#16).I.toNat + (2 : Count).val - 1
    decide
  · show ¬ (0 < (0 : Count).val ∧ 4096 ≤ (atI entry 0xFFFF#16).I.toNat + (0 : Count).val - 1)
    decide
theorem witness_FaultRecordsNameTheInstruction :
    exec .ret entry = .fault (.stackUnderflow 0x200#16 0x00EE#16) ∧
      exec (.skp 2) (regs [(2, 0x10#8)]) = .fault (.keyIndex 0x200#16 0xE29E#16 0x10#8) :=
  ⟨eq_fault (by decide), eq_fault (by decide)⟩
theorem witness_OnlyDestinationsAndFlagsAreWritten :
    ∃ t, exec (.addReg 1 2) (regs [(1, 0xFF#8), (2, 1#8)]) = .next t ∧ ¬ IsDest (.addReg 1 2) 3 ∧ (3 : Reg) ≠ vF ∧
      WritesFlag (.addReg 1 2) :=
  ⟨_, rfl, fun h => absurd (show (3 : Reg) = 1 from h) (by decide), by decide, trivial⟩
theorem witness_EachRegisterHasItsWriters :
    ∃ t, exec (.ldI 0x300#12) entry = .next t ∧ t.I ≠ entry.I := ⟨_, rfl, by decide⟩
/-- The same but for what no instruction can see. -/
def otherwise : State := { entry with dirty := true, rate := 700, out := [.start] }

theorem witness_OutputsAndTimeAreInvisible :
    otherwise =
      { entry with dirty := otherwise.dirty, accCpu := otherwise.accCpu, accTimer := otherwise.accTimer, rate := otherwise.rate,
                   phase := otherwise.phase, out := otherwise.out } ∧
      otherwise.rate ≠ entry.rate ∧ (∃ t, exec .cls entry = .next t) ∧ ∃ f, exec .ret entry = .fault f :=
  ⟨rfl, by decide, ⟨_, rfl⟩, _, eq_fault (f := .stackUnderflow 0x200#16 0x00EE#16) (by decide)⟩
theorem witness_OnlyKeyInstructionsReadKeys : ¬ ReadsKeys .cls ∧ ¬ ReadsKeys (.ldVxDt 0) := ⟨fun h => h, fun h => h⟩

/-- The state in which the next step runs its instruction, with the key sample `k`. -/
def atEntry (s : State) (k : BitVec 16) : State :=
  { s.tickStart with pc := s.pc + 2#16, keys := k, inputs := afterSample s.tickStart.inputs }

/-- A scripted sample is the coming one, and past the script the free value is. -/
theorem samples_answer :
    SampleAnswers gapped 0#16 ∧ SampleAnswers (State.reset.withFetchWord 16 0x6A2F) (Config.keySample 0) ∧
      SampleAnswers (State.reset.withFetchWord 16 0x00EE) (Config.keySample 0) := by
  refine ⟨⟨fun k rest h => ?_, fun h => by cases h⟩, ⟨fun _ _ h => (by cases h), fun _ => rfl⟩, fun _ _ h => (by cases h), fun _ => rfl⟩
  cases h; rfl

/-- A word that completes, and one that faults; `samples_answer` gives their sample. -/
theorem witness_StepRunsDecodedInstruction :
    ((State.reset.withFetchWord 16 0x6A2F).Ticks ∧ (State.reset.withFetchWord 16 0x6A2F).fetchable = true ∧
      decode (State.reset.withFetchWord 16 0x6A2F).fetchWord = .ldImm 10 0x2F#8 ∧ (Instr.ldImm 10 0x2F#8).wf = true ∧
      ∃ t, exec (.ldImm 10 0x2F#8) (atEntry (State.reset.withFetchWord 16 0x6A2F) (Config.keySample 0)) = .next t ∧
        SampleAnswers (State.reset.withFetchWord 16 0x6A2F) (Config.keySample 0)) ∧
    (State.reset.withFetchWord 16 0x00EE).Ticks ∧ (State.reset.withFetchWord 16 0x00EE).fetchable = true ∧
      decode (State.reset.withFetchWord 16 0x00EE).fetchWord = .ret ∧ Instr.ret.wf = true ∧
      ∃ f, exec .ret (atEntry (State.reset.withFetchWord 16 0x00EE) (Config.keySample 0)) = .fault f ∧
        SampleAnswers (State.reset.withFetchWord 16 0x00EE) (Config.keySample 0) :=
  ⟨⟨ticks_placed _ _ rfl, by decide, by decide, by decide, _, rfl, samples_answer.2.1⟩,
    ticks_placed _ _ rfl, by decide, by decide, by decide, _, eq_fault (f := .stackUnderflow 0x200#16 0x00EE#16) (by decide),
    samples_answer.2.2⟩

/-- A run in which one second, or no time, has passed since the last iteration. -/
def passed (num : Nat) : State :=
  { State.reset with phase := .running, inputs := { freeInputs with iterations := [⟨true, ⟨num, 1⟩⟩] } }

/-- What the script of `passed` answers. -/
theorem passed_answers (num : Nat) : PollAnswers (passed num) true ∧ ElapsedAnswers (passed num) ⟨num, 1⟩ :=
  ⟨⟨fun _ _ h => (by cases h; rfl), fun h => by cases h⟩, fun _ _ h => (by cases h; rfl), fun h => by cases h⟩

/-- A first iteration past the script; one from a running machine with a timer tick; one with neither tick. -/
theorem witness_TimersTickBeforeTheInstruction :
    (State.reset.phase = .ready ∧ PollAnswers State.reset (Config.pollAnswer 0) ∧ ElapsedAnswers State.reset (Config.elapsed 0)) ∧
      ((passed 1).phase = .running ∧ PollAnswers (passed 1) true ∧ ElapsedAnswers (passed 1) ⟨1, 1⟩ ∧
        (1 : Rat) / 60 ≤ (passed 1).accTimer + ((1 : Nat) : Rat) / ((1 : Nat) : Rat)) ∧
      (passed 0).phase = .running ∧ PollAnswers (passed 0) true ∧ ElapsedAnswers (passed 0) ⟨0, 1⟩ ∧
      (passed 0).accTimer + ((0 : Nat) : Rat) / ((1 : Nat) : Rat) < 1 / 60 ∧ (passed 0).fault = none ∧ 0 < (passed 0).rate ∧
      (passed 0).accCpu + ((0 : Nat) : Rat) / ((1 : Nat) : Rat) < 1 / ((passed 0).rate : Rat) := by
  refine ⟨⟨rfl, ⟨fun _ _ h => (by cases h), fun _ => rfl⟩, fun _ _ h => (by cases h), fun _ => rfl⟩,
    ⟨rfl, (passed_answers 1).1, (passed_answers 1).2, ?_⟩, rfl, (passed_answers 0).1, (passed_answers 0).2, ?_, rfl, by decide, ?_⟩
  · show (1 : Rat) / 60 ≤ 0 + ((1 : Nat) : Rat) / ((1 : Nat) : Rat)
    norm_num
  · show (0 : Rat) + ((0 : Nat) : Rat) / ((1 : Nat) : Rat) < 1 / 60
    norm_num
  · show (0 : Rat) + ((0 : Nat) : Rat) / ((1 : Nat) : Rat) < 1 / ((500 : Nat) : Rat)
    norm_num

/-- `pc` past the last instruction, and an elapsed time that completes a CPU period. -/
def runOff : State := { passed 1 with pc := 0xFFF#16 }

theorem witness_FetchPastMemoryFaults : runOff.Ticks ∧ 4095 ≤ runOff.pc.toNat := by
  refine ⟨⟨⟨rfl, by decide, by decide⟩, rfl, ?_⟩, by decide⟩
  show (1 : Rat) / ((500 : Nat) : Rat) ≤ 0 + mkRat 1 1
  norm_num [Rat.mkRat_eq_div]
theorem witness_FaultingStepChangesNoProgramState : ∃ t f, step runOff = .next t ∧ t.fault = some f := by
  obtain ⟨t, h, hp⟩ := exists_next (r := step runOff) (p := fun t => t.fault == some (.fetchRange 0xFFF#16)) (by decide)
  exact ⟨t, _, h, eq_of_beq hp⟩
theorem witness_NoStepIsEnabled :
    ({ entry with fault := some (.fetchRange 0xFFF#16) } : State).fault = some (.fetchRange 0xFFF#16) ∧
      (entry.fault = none ∧ ({ entry with rate := 0 } : State).rate = 0) ∧
      0 < ({ entry with phase := .ended } : State).rate ∧ ({ entry with phase := .ended } : State).phase = .ended ∧
      ({ entry with phase := .running } : State).phase = .running ∧ entry.phase ≠ .running := by decide

/-- The backend asks to quit. -/
def quitting (p : RunPhase) : State :=
  { State.reset with phase := p, inputs := { freeInputs with iterations := [⟨false, ⟨1, 1⟩⟩] } }

theorem witness_QuitEndsTheRun :
    (quitting .ready).CanRun ∧ PollAnswers (quitting .ready) false ∧ (quitting .running).CanRun ∧
      PollAnswers (quitting .running) false :=
  ⟨⟨rfl, by decide, by decide⟩, ⟨fun _ _ h => (by cases h; rfl), fun h => by cases h⟩, ⟨rfl, by decide, by decide⟩,
    fun _ _ h => (by cases h; rfl), fun h => by cases h⟩
theorem witness_DrawIsPresentedAtOnce :
    (State.reset.withFetchWord 16 0xD005).Ticks ∧ (State.reset.withFetchWord 16 0xD005).fetchable = true ∧
      decode (State.reset.withFetchWord 16 0xD005).fetchWord = .drw 0 0 5 ∧
      ∃ t, step (State.reset.withFetchWord 16 0xD005) = .next t ∧ t.fault = none := by
  refine ⟨ticks_placed _ _ rfl, by decide, by decide, ?_⟩
  obtain ⟨t, h, hp⟩ := exists_next (r := step (State.reset.withFetchWord 16 0xD005)) (p := fun t => t.fault == none) (by decide)
  exact ⟨t, h, eq_of_beq hp⟩
/-- An iteration with a CPU tick, and one without. -/
theorem witness_NoCatchUp :
    (∃ t, step gapped = .next t ∧ t.fault = none ∧ gapped.nextPoll = true) ∧
      ∃ t, step (passed 0) = .next t ∧ t.fault = none ∧ (passed 0).nextPoll = true := by
  obtain ⟨t, h, hp⟩ := exists_next (r := step gapped) (p := fun t => t.fault == none) (by decide)
  obtain ⟨u, h', hp'⟩ := exists_next (r := step (passed 0)) (p := fun t => t.fault == none) (by decide)
  exact ⟨⟨t, h, eq_of_beq hp, rfl⟩, u, h', eq_of_beq hp', rfl⟩
theorem witness_TicksAreBoundedByElapsedTime :
    gapped.fault = none ∧ gapped.accCpu = 0 ∧ gapped.accTimer = 0 ∧ ∃ t, Host.Core.run Sys2Proof.core 2 gapped = .next t := by
  refine ⟨rfl, rfl, rfl, ?_⟩
  obtain ⟨t, h, -⟩ := exists_next (r := Host.Core.run Sys2Proof.core 2 gapped) (p := fun _ => true) (by decide)
  exact ⟨t, h⟩
theorem witness_StepKeepsInvariant : gapped.Inv ∧ ∃ t, step gapped = .next t := by
  refine ⟨⟨by decide, by decide, by decide, rfl, le_refl _, le_refl _⟩, ?_⟩
  obtain ⟨t, h, -⟩ := exists_next (r := step gapped) (p := fun _ => true) (by decide)
  exact ⟨t, h⟩
/-- The edges of the font: 20_memory.md section 7 and decision D8. -/
theorem witness_ResetValues :
    State.reset.mem.read 0x04F = 0#8 ∧ State.reset.mem.read 0x050 = 0xF0#8 ∧ State.reset.mem.read 0x09F = 0x80#8 ∧
      State.reset.mem.read 0x0A0 = 0#8 ∧ 0x04F < 0x050 ∧ 0x0A0 ≤ 0x0A0 := by decide
theorem witness_LoadPlacesTheProgram :
    (State.reset.mem.Wf ∧ State.reset.phase = .ready ∧ State.reset.fault = none ∧
      ({ entry with phase := .loaded } : State).phase = .loaded ∧ (quitting .ended).phase = .ended ∧
      ({ entry with fault := some (.fetchRange 0xFFF#16) } : State).fault ≠ none) ∧ ([] : List Byte).length = 0 ∧ 3584 < (List.replicate 3585 0#8).length ∧
      1 ≤ [0x60#8].length ∧ [0x60#8].length ≤ 3584 ∧ (List.replicate 3584 0#8).length ≤ 3584 :=
  ⟨⟨by decide, rfl, rfl, rfl, rfl, by decide⟩, rfl, by rw [List.length_replicate]; decide, by decide, by decide, by rw [List.length_replicate]⟩
theorem witness_PlacedWordIsTheNextInstruction : State.reset.mem.Wf ∧ Memory.Wf [(0x300, 1#8)] := by decide

end Sys2Proof.Tests
end

section
/-! PROOFS. Control flow and no-ops (spec/40_flow.md): what the arms of `exec` for NOP0, SYS, JP and an unknown word answer, and the
statements they settle. -/

namespace Sys2Proof.Machine

/-! ### Facts the statements need -/

/-- A 12-bit target keeps its value as a word: the zero-extension of 30_encoding.md R73. -/
@[simp] theorem toNat_wordOfAddr (nnn : Addr12) : (wordOfAddr nnn).toNat = nnn.toNat :=
  BitVec.toNat_setWidth_of_le (by decide)

/-- The type nibble of SYS is 0, so its word is its own `nnn`. -/
theorem encode_sys (nnn : Addr12) : encode (.sys nnn) = BitVec.ofNat 16 nnn.toNat := by
  apply BitVec.eq_of_toNat_eq
  have hword : (encode (.sys nnn)).toNat = 0 * 4096 + nnn.toNat := toNat_encodeNNN 0x0#4 nnn
  have hlt := nnn.isLt
  rw [hword, BitVec.toNat_ofNat]
  omega

/-- The first `pc` whose second byte lies past memory is 4095 (20_memory.md R52, R53). -/
theorem State.fetchable_eq_false_iff (s : State) : s.fetchable = false ↔ 4095 ≤ s.pc.toNat := by
  rw [State.fetchable, decide_eq_false_iff_not, Config.memSize]
  omega

/-- The largest 12-bit target is the only one that reaches 4095. -/
theorem jpTarget_unfetchable_iff (nnn : Addr12) (s : State) :
    (s.setPc (wordOfAddr nnn)).fetchable = false ↔ nnn = 0xFFF#12 := by
  rw [State.fetchable_eq_false_iff, State.setPc_pc, toNat_wordOfAddr, ← BitVec.toNat_inj]
  have hlt := nnn.isLt
  have hmax : (0xFFF#12).toNat = 4095 := rfl
  omega

/-! ### The arms of `exec` -/

theorem exec_nop0 (s : State) : exec .nop0 s = .next s := rfl

theorem exec_sys (nnn : Addr12) (s : State) : exec (.sys nnn) s = .next (s.emit (.diag (encode (.sys nnn)))) := rfl

theorem exec_jp (nnn : Addr12) (s : State) : exec (.jp nnn) s = .next (s.setPc (wordOfAddr nnn)) := rfl

theorem exec_unknown (w : Word) (s : State) : exec (.unknown w) s = .next (s.emit (.diag w)) := rfl

/-! ### The statements -/

/-- Settles O7: each arm is the identity or one `emit`, and the word SYS reports is its `nnn`. -/
theorem noOpsAndTheirDiag : Obligations.NoOpsAndTheirDiag := by
  refine ⟨exec_nop0, fun nnn s _ => ?_, fun w s _ => exec_unknown w s⟩
  rw [exec_sys, encode_sys, State.emit]

/-- Settles O8: JP is one `setPc`, and the zero-extended target is at most 4095. -/
theorem jumpSetsPc : Obligations.JumpSetsPc := fun nnn s =>
  ⟨s.setPc (wordOfAddr nnn), exec_jp nnn s, toNat_wordOfAddr nnn, rfl, jpTarget_unfetchable_iff nnn s⟩

end Sys2Proof.Machine
end

section
/-! PROOFS. Register loads (spec/42_alu.md R110, R113): what a single register write leaves behind, the arms of `exec` for the two
loads, and the statement they settle. -/

namespace Sys2Proof.Machine

/-- A single register write meets the whole of `WritesReg`, VF as a destination included; so does every arm that is one `setReg`. -/
theorem writesReg_setReg (s : State) (x : Reg) (v : Byte) : Statement.WritesReg (.next (s.setReg x v)) s x v :=
  ⟨s.setReg x v, rfl, s.reg_setReg_self x v, fun _ hq => s.reg_setReg_of_ne v hq, s.setReg_eq_with x v⟩

theorem exec_ldImm (x : Reg) (kk : Byte) (s : State) : exec (.ldImm x kk) s = .next (s.setReg x kk) := rfl

theorem exec_ldReg (x y : Reg) (s : State) : exec (.ldReg x y) s = .next (s.setReg x (s.reg y)) := rfl

/-- Settles O15: each load is one `setReg`, of the immediate or of `Vy` as it was before the write. -/
theorem loadsWriteTheirRegister : Obligations.LoadsWriteTheirRegister := by
  intro x y kk s
  rw [exec_ldImm, exec_ldReg]
  exact ⟨writesReg_setReg s x kk, writesReg_setReg s x (s.reg y)⟩

end Sys2Proof.Machine
end

section
/-! PROOFS. Index register (spec/43_index_memory.md R130): the frame of a write to `I`, the arm of `exec` for LD I, and the statement
it settles. -/

namespace Sys2Proof.Machine

/-- A write to `I` leaves every other field as it was. -/
theorem State.setI_eq_with (s : State) (v : Word) : s.setI v = { s with I := (s.setI v).I } := rfl

theorem exec_ldI (nnn : Addr12) (s : State) : exec (.ldI nnn) s = .next (s.setI (wordOfAddr nnn)) := rfl

/-- Settles O21: LD I is one `setI`, and zero-extension keeps the 12-bit value. -/
theorem loadIndexZeroExtends : Obligations.LoadIndexZeroExtends := by
  intro nnn s
  have hI : (s.setI (wordOfAddr nnn)).I.toNat = nnn.toNat := by
    rw [State.setI_I, toNat_wordOfAddr]
  exact ⟨s.setI (wordOfAddr nnn), exec_ldI nnn s, hI, s.setI_eq_with (wordOfAddr nnn)⟩

end Sys2Proof.Machine
end

section
/-! PROOFS. Decoder and encoder (spec/30_encoding.md): what the decoder does in each group, how a word is put together again from
its fields, which words are UNKNOWN, and the statements on encoding. -/

namespace Sys2Proof.Machine

/-! ### A word and its fields, with the first digit known -/

theorem encodeNNN_of_typeNibble {w : Word} {k : Nat} (h : (typeNibble w).toNat = k) :
    encodeNNN (BitVec.ofNat 4 k) (fieldNNN w) = w := by
  rw [← h, BitVec.ofNat_toNat, BitVec.setWidth_eq, encodeNNN_fields]

theorem encodeXKK_of_typeNibble {w : Word} {k : Nat} (h : (typeNibble w).toNat = k) :
    encodeXKK (BitVec.ofNat 4 k) (fieldX w) (fieldKK w) = w := by
  rw [← h, BitVec.ofNat_toNat, BitVec.setWidth_eq, encodeXKK_fields]

theorem encodeXKK_of_selector {w : Word} {k j : Nat} (h : (typeNibble w).toNat = k) (hj : (fieldKK w).toNat = j) :
    encodeXKK (BitVec.ofNat 4 k) (fieldX w) (BitVec.ofNat 8 j) = w := by
  rw [← hj, BitVec.ofNat_toNat, BitVec.setWidth_eq, encodeXKK_of_typeNibble h]

theorem encodeXYN_of_typeNibble {w : Word} {k : Nat} (h : (typeNibble w).toNat = k) :
    encodeXYN (BitVec.ofNat 4 k) (fieldX w) (fieldY w) (fieldN w) = w := by
  rw [← h, BitVec.ofNat_toNat, BitVec.setWidth_eq, encodeXYN_fields]

theorem encodeXYN_of_selector {w : Word} {k j : Nat} (h : (typeNibble w).toNat = k) (hj : (fieldN w).toNat = j) :
    encodeXYN (BitVec.ofNat 4 k) (fieldX w) (fieldY w) (BitVec.ofNat 4 j) = w := by
  rw [← hj, BitVec.ofNat_toNat, BitVec.setWidth_eq, encodeXYN_of_typeNibble h]

/-! ### The groups that look past the first digit (R75) -/

theorem decode_of_group0 {w : Word} (h : typeNibble w = 0x0#4) : decode w = decodeGroup0 w := by simp [decode, h]

theorem decode_of_group8 {w : Word} (h : typeNibble w = 0x8#4) : decode w = decodeGroup8 w := by simp [decode, h]

theorem decode_of_groupE {w : Word} (h : typeNibble w = 0xE#4) : decode w = decodeGroupE w := by simp [decode, h]

theorem decode_of_groupF {w : Word} (h : typeNibble w = 0xF#4) : decode w = decodeGroupF w := by simp [decode, h]

/-- The low nibbles that select an instruction of group 8 (R75). -/
def listedN : List Nat := [0x0, 0x1, 0x2, 0x3, 0x4, 0x5, 0x6, 0x7, 0xE]

/-- The low bytes that select an instruction of group E (R75). -/
def listedE : List Nat := [0x9E, 0xA1]

/-- The low bytes that select an instruction of group F (R75). -/
def listedF : List Nat := [0x07, 0x0A, 0x15, 0x18, 0x1E, 0x29, 0x33, 0x55, 0x65]

theorem decodeGroup0_ne_unknown (w v : Word) : decodeGroup0 w ≠ .unknown v := by
  unfold decodeGroup0
  repeat' split
  all_goals nofun

theorem decodeGroup8_eq_unknown_iff (w v : Word) :
    decodeGroup8 w = .unknown v ↔ v = w ∧ (fieldN w).toNat ∉ listedN := by
  unfold decodeGroup8 listedN
  split <;> simp_all [eq_comm]

theorem decodeGroupE_eq_unknown_iff (w v : Word) :
    decodeGroupE w = .unknown v ↔ v = w ∧ (fieldKK w).toNat ∉ listedE := by
  unfold decodeGroupE listedE
  split <;> simp_all [eq_comm]

theorem decodeGroupF_eq_unknown_iff (w v : Word) :
    decodeGroupF w = .unknown v ↔ v = w ∧ (fieldKK w).toNat ∉ listedF := by
  unfold decodeGroupF listedF
  split <;> simp_all [eq_comm]

/-- Group by group, the words that select no instruction. -/
theorem decode_eq_unknown_iff (w v : Word) :
    decode w = .unknown v ↔ v = w ∧
      ((typeNibble w).toNat = 0x8 ∧ (fieldN w).toNat ∉ listedN ∨
       (typeNibble w).toNat = 0xE ∧ (fieldKK w).toNat ∉ listedE ∨
       (typeNibble w).toNat = 0xF ∧ (fieldKK w).toNat ∉ listedF) := by
  have hlt := (typeNibble w).isLt
  unfold decode
  split
  case h_1 h => simp [h, decodeGroup0_ne_unknown]
  case h_9 h => simp [h, decodeGroup8_eq_unknown_iff]
  case h_15 h => simp [h, decodeGroupE_eq_unknown_iff]
  case h_16 =>
    have h : (typeNibble w).toNat = 0xF := by simp only [imp_false] at *; omega
    simp [h, decodeGroupF_eq_unknown_iff]
  all_goals simp_all

/-! ### The masks of the opcode map, by fields -/

@[simp] theorem and_F000_eq_iff {w p : Word} (hp : p &&& 0xF000#16 = p) :
    w &&& 0xF000#16 = p ↔ (typeNibble w).toNat = p.toNat / 4096 := by
  have hw := congrArg BitVec.toNat (mask_F000 w)
  have hp' := congrArg BitVec.toNat (mask_F000 p)
  rw [hp] at hp'
  rw [toNat_encodeNNN] at hw hp'
  rw [← BitVec.toNat_inj, hw]
  have := toNat_typeNibble p
  simp only [BitVec.toNat_ofNat] at *
  omega

@[simp] theorem and_000F_eq_iff {w p : Word} : w &&& 0x000F#16 = p ↔ (fieldN w).toNat = p.toNat := by
  rw [← BitVec.toNat_inj, mask_000F]

@[simp] theorem and_00FF_eq_iff {w p : Word} : w &&& 0x00FF#16 = p ↔ (fieldKK w).toNat = p.toNat := by
  rw [← BitVec.toNat_inj, mask_00FF]

@[simp] theorem and_F00F_eq_iff {w p : Word} (hp : p &&& 0xF00F#16 = p) :
    w &&& 0xF00F#16 = p ↔ (typeNibble w).toNat = p.toNat / 4096 ∧ (fieldN w).toNat = p.toNat % 16 := by
  have hw := congrArg BitVec.toNat (mask_F00F w)
  have hp' := congrArg BitVec.toNat (mask_F00F p)
  rw [hp] at hp'
  rw [toNat_encodeXYN] at hw hp'
  rw [← BitVec.toNat_inj, hw]
  have := toNat_typeNibble p
  have := toNat_fieldN p
  have := (fieldN w).isLt
  simp only [Fin.val_zero] at *
  omega

@[simp] theorem and_F0FF_eq_iff {w p : Word} (hp : p &&& 0xF0FF#16 = p) :
    w &&& 0xF0FF#16 = p ↔ (typeNibble w).toNat = p.toNat / 4096 ∧ (fieldKK w).toNat = p.toNat % 256 := by
  have hw := congrArg BitVec.toNat (mask_F0FF w)
  have hp' := congrArg BitVec.toNat (mask_F0FF p)
  rw [hp] at hp'
  rw [toNat_encodeXKK] at hw hp'
  rw [← BitVec.toNat_inj, hw]
  have := toNat_typeNibble p
  have := toNat_fieldKK p
  have := (fieldKK w).isLt
  simp only [Fin.val_zero] at *
  omega

/-- A whole word, by its first digit and its `nnn`. -/
theorem eq_iff_fields {w p : Word} :
    w = p ↔ (typeNibble w).toNat = p.toNat / 4096 ∧ (fieldNNN w).toNat = p.toNat % 4096 := by
  rw [← BitVec.toNat_inj, toNat_typeNibble, toNat_fieldNNN]
  omega

@[simp] theorem and_FFFF_eq_iff {w p : Word} :
    w &&& 0xFFFF#16 = p ↔ (typeNibble w).toNat = p.toNat / 4096 ∧ (fieldNNN w).toNat = p.toNat % 4096 := by
  rw [show w &&& 0xFFFF#16 = w from BitVec.and_allOnes, eq_iff_fields]

/-- The well-formed UNKNOWN terms are those the decoder answers. -/
theorem isUnknownWord_iff (w : Word) : isUnknownWord w = true ↔ decode w = .unknown w := by
  have hlt := (fieldN w).isLt
  have hN : (fieldN w).toNat ∉ listedN ↔ (fieldN w).toNat ∈ [8, 9, 10, 11, 12, 13, 15] := by
    simp [listedN]; omega
  rw [decode_eq_unknown_iff, hN]
  simp [isUnknownWord, and_F000_eq_iff, and_000F_eq_iff, and_00FF_eq_iff, listedE, listedF, or_assoc]

/-! ### SYS takes what is left of group 0 (R75) -/

theorem encodeNNN_eq_iff (t : Nibble) (a b : Addr12) : encodeNNN t a = encodeNNN t b ↔ a = b :=
  ⟨fun h => by simpa using congrArg fieldNNN h, fun h => h ▸ rfl⟩

/-- The three words of group 0 that are no SYS are those of the three reserved `nnn`. -/
theorem decodeGroup0_encodeNNN (nnn : Addr12) :
    decodeGroup0 (encodeNNN 0x0#4 nnn) =
      if nnn = 0x000#12 then .nop0 else if nnn = 0x0E0#12 then .cls else if nnn = 0x0EE#12 then .ret else .sys nnn := by
  have h0 : encodeNNN 0x0#4 nnn = 0x0000#16 ↔ nnn = 0x000#12 := encodeNNN_eq_iff 0x0#4 nnn 0x000#12
  have h1 : encodeNNN 0x0#4 nnn = 0x00E0#16 ↔ nnn = 0x0E0#12 := encodeNNN_eq_iff 0x0#4 nnn 0x0E0#12
  have h2 : encodeNNN 0x0#4 nnn = 0x00EE#16 ↔ nnn = 0x0EE#12 := encodeNNN_eq_iff 0x0#4 nnn 0x0EE#12
  simp only [decodeGroup0, h0, h1, h2, fieldNNN_encodeNNN]

theorem decodeGroup0_wf (w : Word) (h : (typeNibble w).toNat = 0) :
    (decodeGroup0 w).wf = true ∧ encode (decodeGroup0 w) = w := by
  have hw : encodeNNN 0x0#4 (fieldNNN w) = w := encodeNNN_of_typeNibble h
  rw [← hw, decodeGroup0_encodeNNN]
  split
  case isTrue e => rw [e]; decide
  split
  case isTrue e => rw [e]; decide
  split
  case isTrue e => rw [e]; decide
  simp_all [Instr.wf, isReservedSys, encode]

theorem unknown_wf {w : Word} (h : decode w = .unknown w) :
    (Instr.unknown w).wf = true ∧ encode (.unknown w) = w := ⟨(isUnknownWord_iff w).2 h, rfl⟩

theorem decodeGroup8_wf (w : Word) (h : (typeNibble w).toNat = 0x8) :
    (decodeGroup8 w).wf = true ∧ encode (decodeGroup8 w) = w := by
  have hd := decode_of_group8 (BitVec.eq_of_toNat_eq h)
  unfold decodeGroup8 at hd ⊢
  split
  case h_10 => simp_all [unknown_wf]
  all_goals exact ⟨rfl, encodeXYN_of_selector h ‹_›⟩

theorem decodeGroupE_wf (w : Word) (h : (typeNibble w).toNat = 0xE) :
    (decodeGroupE w).wf = true ∧ encode (decodeGroupE w) = w := by
  have hd := decode_of_groupE (BitVec.eq_of_toNat_eq h)
  unfold decodeGroupE at hd ⊢
  split
  case h_3 => simp_all [unknown_wf]
  all_goals exact ⟨rfl, encodeXKK_of_selector h ‹_›⟩

theorem decodeGroupF_wf (w : Word) (h : (typeNibble w).toNat = 0xF) :
    (decodeGroupF w).wf = true ∧ encode (decodeGroupF w) = w := by
  have hd := decode_of_groupF (BitVec.eq_of_toNat_eq h)
  unfold decodeGroupF at hd ⊢
  split
  case h_10 => simp_all [unknown_wf]
  all_goals exact ⟨rfl, encodeXKK_of_selector h ‹_›⟩

/-! ### The first row of the opcode map that covers a word (R77), in the groups that look past the first digit -/

theorem rowMnemonic_group0 (w : Word) (h : (typeNibble w).toNat = 0x0) :
    rowMnemonic w = some (decodeGroup0 w).mnemonic := by
  simp only [decodeGroup0, eq_iff_fields]
  split_ifs <;> simp_all [rowMnemonic, opcodeMap, opcodeRowsLow, OpcodeRow.covers, Instr.mnemonic]

theorem rowMnemonic_group8 (w : Word) (h : (typeNibble w).toNat = 0x8) :
    rowMnemonic w = some (decodeGroup8 w).mnemonic := by
  unfold decodeGroup8
  split <;> simp_all [rowMnemonic, opcodeMap, opcodeRowsLow, opcodeRowsMid, opcodeRowsHigh, OpcodeRow.covers, Instr.mnemonic]

theorem rowMnemonic_groupE (w : Word) (h : (typeNibble w).toNat = 0xE) :
    rowMnemonic w = some (decodeGroupE w).mnemonic := by
  unfold decodeGroupE
  split <;> simp_all [rowMnemonic, opcodeMap, opcodeRowsLow, opcodeRowsMid, opcodeRowsHigh, OpcodeRow.covers, Instr.mnemonic]

theorem rowMnemonic_groupF (w : Word) (h : (typeNibble w).toNat = 0xF) :
    rowMnemonic w = some (decodeGroupF w).mnemonic := by
  unfold decodeGroupF
  split <;> simp_all [rowMnemonic, opcodeMap, opcodeRowsLow, opcodeRowsMid, opcodeRowsHigh, OpcodeRow.covers, Instr.mnemonic]

/-! ### The statements -/

/-- Settles O1: by the instruction's format; the first digit selects the group, the selector the row, and the fields come back. -/
theorem decodeOfEncode : Obligations.DecodeOfEncode := by
  intro i hi
  cases i with
  | nop0 | cls | ret => rfl
  | sys nnn =>
    rw [encode, decode_of_group0 (typeNibble_encodeNNN _ _), decodeGroup0_encodeNNN]
    simp_all [Instr.wf, isReservedSys]
  | unknown w => exact (isUnknownWord_iff w).1 hi
  | _ => simp [decode, encode, decodeGroup8, decodeGroupE, decodeGroupF]

/-- Settles O2: in each group the word is put together again from the fields the decoder has taken. -/
theorem encodeOfDecode : Obligations.EncodeOfDecode := by
  intro w
  have hlt := (typeNibble w).isLt
  unfold decode
  split
  case h_1 h => exact decodeGroup0_wf w h
  case h_9 h => exact decodeGroup8_wf w h
  case h_15 h => exact decodeGroupE_wf w h
  case h_16 => exact decodeGroupF_wf w (by simp only [imp_false] at *; omega)
  case h_14 h => exact ⟨rfl, encodeXYN_of_typeNibble h⟩
  case h_2 h | h_3 h | h_11 h | h_12 h => exact ⟨rfl, encodeNNN_of_typeNibble h⟩
  case h_4 h | h_5 h | h_7 h | h_8 h | h_13 h => exact ⟨rfl, encodeXKK_of_typeNibble h⟩
  case h_6 h | h_10 h => exact ⟨rfl, encodeXYN_of_typeNibble h⟩

/-- Settles O3: one case for each group and each selector the decoder tells apart; the masks of the rows keep exactly the fields
the decoder looks at, so the first row that covers the word is found by those fields. -/
theorem decodeFollowsOpcodeMap : Obligations.DecodeFollowsOpcodeMap := by
  intro w
  have hlt := (typeNibble w).isLt
  unfold decode
  split
  case h_1 => exact rowMnemonic_group0 w ‹_›
  case h_9 => exact rowMnemonic_group8 w ‹_›
  case h_15 => exact rowMnemonic_groupE w ‹_›
  case h_16 => exact rowMnemonic_groupF w (by simp only [imp_false] at *; omega)
  all_goals simp_all [rowMnemonic, opcodeMap, opcodeRowsLow, opcodeRowsMid, OpcodeRow.covers, Instr.mnemonic]

/-- Settles O4: the fields of `decode_eq_unknown_iff` as quotients and remainders of the word. -/
theorem unknownWordsListed : Obligations.UnknownWordsListed := by
  intro w
  have hN : (fieldN w).toNat ∉ listedN ↔ 8 ≤ w.toNat % 16 ∧ w.toNat % 16 ≤ 13 ∨ w.toNat % 16 = 15 := by
    rw [toNat_fieldN]; simp [listedN]; omega
  have hE : (fieldKK w).toNat ∉ listedE ↔ w.toNat % 256 ≠ 0x9E ∧ w.toNat % 256 ≠ 0xA1 := by
    rw [toNat_fieldKK]; simp [listedE]
  refine ⟨?_, fun v hv => ((decode_eq_unknown_iff w v).1 hv).1⟩
  rw [decode_eq_unknown_iff, hN, hE, toNat_typeNibble, toNat_fieldKK, listedF]
  exact and_iff_right rfl

/-- Settles O5, by evaluation of the decoder. -/
theorem sampleWordsDecode : Obligations.SampleWordsDecode := by
  unfold Obligations.SampleWordsDecode
  decide

end Sys2Proof.Machine
end

section
/-! PROOFS. Control flow and skips (spec/40_flow.md, spec/41_skips.md): what CALL, RET, JP V0 and the skips answer, with the words
their fault records hold, and the statements they settle. -/

namespace Sys2Proof.Machine

/-! ### An instruction's word as a number -/

theorem encodeNNN_eq_ofNat {t : Nibble} {nnn : Addr12} {n : Nat} (h : n = t.toNat * 4096 + nnn.toNat) :
    encodeNNN t nnn = BitVec.ofNat 16 n := by
  have ht := t.isLt
  have hn := nnn.isLt
  apply BitVec.eq_of_toNat_eq
  rw [toNat_encodeNNN, BitVec.toNat_ofNat]
  omega

theorem encodeXKK_eq_ofNat {t : Nibble} {x : Reg} {kk : Byte} {n : Nat} (h : n = t.toNat * 4096 + x.val * 256 + kk.toNat) :
    encodeXKK t x kk = BitVec.ofNat 16 n := by
  have ht := t.isLt
  have hk := kk.isLt
  apply BitVec.eq_of_toNat_eq
  rw [toNat_encodeXKK, BitVec.toNat_ofNat]
  omega

theorem encodeXYN_eq_ofNat {t : Nibble} {x y : Reg} {m : Nibble} {n : Nat}
    (h : n = t.toNat * 4096 + x.val * 256 + y.val * 16 + m.toNat) : encodeXYN t x y m = BitVec.ofNat 16 n := by
  have ht := t.isLt
  have hm := m.isLt
  apply BitVec.eq_of_toNat_eq
  rw [toNat_encodeXYN, BitVec.toNat_ofNat]
  omega

/-! ### The stack pointer as an integer (10_state.md R27) -/

theorem State.spInt_of_some {s : State} {k : Fin 16} (h : s.sp = some k) : s.spInt = k.val := by
  rw [State.spInt, h]

theorem State.spInt_eq_neg_one_iff (s : State) : s.spInt = -1 ↔ s.sp = none := by
  unfold State.spInt
  cases s.sp with
  | none => simp
  | some k => simp only [reduceCtorEq]

theorem State.spInt_eq_fifteen_iff (s : State) : s.spInt = 15 ↔ s.sp = some 15 := by
  unfold State.spInt
  cases s.sp with
  | none => simp
  | some k => simp only [Option.some.injEq, Fin.ext_iff]; omega

/-- The entry below the one a push has written is the old top. -/
theorem State.entryBelow_of_pushed {s : State} {k : Fin 16} (hk : (k.val : Int) = s.spInt + 1) : entryBelow k = s.sp := by
  unfold entryBelow
  cases hs : s.sp with
  | none =>
    have hneg := s.spInt_eq_neg_one_iff.2 hs
    rw [if_pos (by omega)]
  | some j =>
    have hj := State.spInt_of_some hs
    rw [if_neg (by omega), Option.some.injEq, Fin.ext_iff]
    exact Nat.sub_eq_of_eq_add (by omega)

/-! ### The arms of `exec` -/

theorem exec_jpV0 (nnn : Addr12) (s : State) : exec (.jpV0 nnn) s = .next (s.setPc (s.regWord 0 + wordOfAddr nnn)) := rfl

/-- The state a CALL leaves when entry `k` takes the return address. -/
def State.called (s : State) (k : Fin 16) (target : Word) : State :=
  { s with pc := target, sp := some k, stack := s.stack.set k.val s.pc }

theorem exec_call_full {s : State} (h : s.spInt = 15) (nnn : Addr12) :
    exec (.call nnn) s = .fault (.stackOverflow s.fetchedFrom (encode (.call nnn))) := by
  rcases s.push_cases s.pc with ⟨-, hp⟩ | ⟨k, hk, -⟩
  · simp only [exec, execCall, hp, State.raiseStackOverflow]
  · omega

theorem exec_call_room {s : State} (h : s.spInt ≠ 15) (nnn : Addr12) :
    ∃ k : Fin 16, (k.val : Int) = s.spInt + 1 ∧ exec (.call nnn) s = .next (s.called k (wordOfAddr nnn)) := by
  rcases s.push_cases s.pc with ⟨hs, -⟩ | ⟨k, hk, hp⟩
  · exact absurd (s.spInt_eq_fifteen_iff.2 hs) h
  · exact ⟨k, hk, by simp only [exec, execCall, hp, State.setPc, State.called]⟩

theorem exec_ret_empty {s : State} (h : s.sp = none) :
    exec .ret s = .fault (.stackUnderflow s.fetchedFrom (encode .ret)) := by
  simp only [exec, execRet, State.pop, h, State.raiseStackUnderflow]

theorem exec_ret_live {s : State} {k : Fin 16} (h : s.sp = some k) :
    exec .ret s = .next { s with pc := s.stack[k.val], sp := entryBelow k } := by
  simp only [exec, execRet, State.pop, h, State.setPc]

theorem exec_seImm (x : Reg) (kk : Byte) (s : State) : exec (.seImm x kk) s = .next (s.skipIf (s.reg x == kk)) := rfl

theorem exec_sneImm (x : Reg) (kk : Byte) (s : State) : exec (.sneImm x kk) s = .next (s.skipIf (s.reg x != kk)) := rfl

theorem exec_seReg (x y : Reg) (low : Nibble) (s : State) :
    exec (.seReg x y low) s = .next (s.skipIf (s.reg x == s.reg y)) := rfl

theorem exec_sneReg (x y : Reg) (low : Nibble) (s : State) :
    exec (.sneReg x y low) s = .next (s.skipIf (s.reg x != s.reg y)) := rfl

/-- SKP and SKNP share the guard on the key code. -/
theorem exec_keySkip_invalid {s : State} {x : Reg} (h : 16 ≤ (s.reg x).toNat) :
    exec (.skp x) s = .fault (.keyIndex s.fetchedFrom (encode (.skp x)) (s.reg x)) ∧
    exec (.sknp x) s = .fault (.keyIndex s.fetchedFrom (encode (.sknp x)) (s.reg x)) := by
  simp only [exec, execSkp, execSknp, if_pos h, State.raiseKeyIndex, and_self]

/-- A skip whose test decides `p`, with its frame. -/
theorem State.skipIf_of_iff (s : State) {c : Bool} {p : Prop} [Decidable p] (h : c = true ↔ p) :
    s.skipIf c = { s with pc := if p then s.pc + 2#16 else s.pc } := by
  rw [State.skipIf_eq, State.setPc]
  by_cases hp : p <;> simp [h, hp]

/-! ### The statements -/

/-- Settles O9: a byte and a 12-bit target sum to less than 65536. -/
theorem indexedJumpAddsV0 : Obligations.IndexedJumpAddsV0 := by
  intro nnn s
  refine ⟨_, exec_jpV0 nnn s, ?_, rfl⟩
  have h0 : (s.regWord 0).toNat = (s.reg 0).toNat := BitVec.toNat_setWidth_of_le (by decide)
  have hr := (s.reg 0).isLt
  have hn := nnn.isLt
  rw [State.setPc_pc, BitVec.toNat_add, h0, toNat_wordOfAddr]
  omega

/-- Settles O10: the pushed entry is the one above the old stack pointer. -/
theorem callPushesReturnAddress : Obligations.CallPushesReturnAddress := by
  intro nnn s h
  obtain ⟨k, hk, he⟩ := exec_call_room h nnn
  refine ⟨_, he, hk, toNat_wordOfAddr nnn, ⟨k, rfl, Vector.getElem_set_self _, fun j hj => ?_⟩, rfl⟩
  exact Vector.getElem_set_ne k.isLt j.isLt fun e => hj (Fin.ext e.symm)

/-- Settles O11: a pop writes the stack pointer alone, and `pc` takes the entry. -/
theorem returnPopsTopEntry : Obligations.ReturnPopsTopEntry := by
  intro s k h
  refine ⟨_, exec_ret_live h, rfl, ?_, rfl⟩
  rw [State.spInt_of_some h]
  exact spInt_entryBelow s k

/-- Settles O12: the arms at an overflow, an underflow and a key code of 16 or more, with the word of the instruction as a number. -/
theorem stackAndKeyFaultsRaised : Obligations.StackAndKeyFaultsRaised := by
  refine ⟨fun nnn s h => ?_, fun s h => exec_ret_empty (s.spInt_eq_neg_one_iff.1 h), fun x s h => ?_⟩
  · have hw : encode (.call nnn) = BitVec.ofNat 16 (0x2000 + nnn.toNat) := encodeNNN_eq_ofNat rfl
    rw [exec_call_full h, hw, State.fetchedFrom]
  · have hw : encode (.skp x) = BitVec.ofNat 16 (0xE09E + 256 * x.val) :=
      encodeXKK_eq_ofNat (by simp only [BitVec.toNat_ofNat]; omega)
    have hw' : encode (.sknp x) = BitVec.ofNat 16 (0xE0A1 + 256 * x.val) :=
      encodeXKK_eq_ofNat (by simp only [BitVec.toNat_ofNat]; omega)
    rw [← hw, ← hw']
    exact exec_keySkip_invalid h

/-- Settles O13: RET reads the entry CALL has written and steps back below it. -/
theorem returnUndoesCall : Obligations.ReturnUndoesCall := by
  intro nnn s h
  obtain ⟨k, hk, he⟩ := exec_call_room h nnn
  refine ⟨_, he, fun u hsp hstack => ⟨_, exec_ret_live hsp, ?_, State.entryBelow_of_pushed hk⟩⟩
  simp only [hstack, State.called, Vector.getElem_set_self]

/-- Settles O14: each of the four arms is a skip on its comparison. -/
theorem registerSkips : Obligations.RegisterSkips := by
  refine ⟨fun x kk s => ⟨?_, ?_⟩, fun x y low s => ⟨?_, ?_⟩⟩
  · rw [exec_seImm, s.skipIf_of_iff beq_iff_eq]
  · rw [exec_sneImm, s.skipIf_of_iff bne_iff_ne]
  · rw [exec_seReg, s.skipIf_of_iff beq_iff_eq]
  · rw [exec_sneReg, s.skipIf_of_iff bne_iff_ne]

/-- Settles O6: the arms do not take the ignored field. -/
theorem ignoredBitsMakeNoDifference : Obligations.IgnoredBitsMakeNoDifference :=
  fun _ _ _ _ _ _ => ⟨rfl, rfl, rfl, rfl⟩

end Sys2Proof.Machine
end

section
/-! PROOFS. Arithmetic, logic, shifts, random (spec/42_alu.md) and index arithmetic (spec/43_index_memory.md): the results of the
byte operations as numbers, what a flag-writing update leaves behind, and the statements they settle. -/

namespace Sys2Proof.Machine

open Statement

/-! ### Results as numbers mod 256 (R125) -/

theorem byte_add_eq (a b : Byte) : a + b = BitVec.ofNat 8 ((a.toNat + b.toNat) % 256) := by
  apply BitVec.eq_of_toNat_eq
  rw [BitVec.toNat_add, BitVec.toNat_ofNat]
  omega

theorem byte_sub_eq (a b : Byte) : a - b = BitVec.ofNat 8 ((a.toNat + 256 - b.toNat) % 256) := by
  apply BitVec.eq_of_toNat_eq
  have hb := b.isLt
  rw [BitVec.toNat_sub, BitVec.toNat_ofNat]
  omega

theorem byte_shiftRight_eq (a : Byte) : a >>> 1 = BitVec.ofNat 8 (a.toNat / 2) := by
  apply BitVec.eq_of_toNat_eq
  have ha := a.isLt
  rw [BitVec.toNat_ushiftRight, Nat.shiftRight_eq_div_pow, BitVec.toNat_ofNat]
  omega

theorem byte_shiftLeft_eq (a : Byte) : a <<< 1 = BitVec.ofNat 8 (a.toNat * 2 % 256) := by
  apply BitVec.eq_of_toNat_eq
  rw [BitVec.toNat_shiftLeft, Nat.shiftLeft_eq, BitVec.toNat_ofNat]
  omega

theorem lowBit_eq (a : Byte) : lowBit a = decide (a.toNat % 2 = 1) := by
  rw [lowBit, BitVec.getLsbD, Nat.testBit_zero]

theorem highBit_eq (a : Byte) : highBit a = decide (a.toNat ≥ 128) := by
  have ha := a.isLt
  rw [highBit, BitVec.getLsbD, Nat.testBit_eq_decide_div_mod_eq, decide_eq_decide]
  omega

/-! ### The flag-writing update, and the arms of `exec` -/

/-- Result, then flag, meets the whole of `WritesRegFlag`, with F as the destination too (R112). -/
theorem writesRegFlag_setRegFlag (s : State) (x : Reg) (v : Byte) (f : Bool) :
    WritesRegFlag (.next (s.setRegFlag x v f)) s x v f :=
  ⟨_, rfl, s.reg_setRegFlag_vF x v f, fun h => s.reg_setRegFlag_dest h v f,
    fun _ hx hf => s.reg_setRegFlag_other hx hf v f, s.setRegFlag_eq_with x v f⟩

theorem exec_addImm (x : Reg) (kk : Byte) (s : State) : exec (.addImm x kk) s = .next (s.setReg x (s.reg x + kk)) := rfl

theorem exec_orReg (x y : Reg) (s : State) : exec (.orReg x y) s = .next (s.setReg x (s.reg x ||| s.reg y)) := rfl

theorem exec_andReg (x y : Reg) (s : State) : exec (.andReg x y) s = .next (s.setReg x (s.reg x &&& s.reg y)) := rfl

theorem exec_xorReg (x y : Reg) (s : State) : exec (.xorReg x y) s = .next (s.setReg x (s.reg x ^^^ s.reg y)) := rfl

theorem exec_addReg (x y : Reg) (s : State) :
    exec (.addReg x y) s = .next (s.setRegFlag x (s.reg x + s.reg y) (addCarry (s.reg x) (s.reg y))) := rfl

theorem exec_sub (x y : Reg) (s : State) :
    exec (.sub x y) s = .next (s.setRegFlag x (s.reg x - s.reg y) (notBorrow (s.reg x) (s.reg y))) := rfl

theorem exec_subn (x y : Reg) (s : State) :
    exec (.subn x y) s = .next (s.setRegFlag x (s.reg y - s.reg x) (notBorrow (s.reg y) (s.reg x))) := rfl

theorem exec_shr (x y : Reg) (s : State) :
    exec (.shr x y) s = .next (s.setRegFlag x (s.reg x >>> 1) (lowBit (s.reg x))) := rfl

theorem exec_shl (x y : Reg) (s : State) :
    exec (.shl x y) s = .next (s.setRegFlag x (s.reg x <<< 1) (highBit (s.reg x))) := rfl

theorem exec_rnd (x : Reg) (kk : Byte) (s : State) :
    exec (.rnd x kk) s = .next (s.takeRand.setReg x (s.nextRand &&& kk)) := rfl

theorem exec_addI (x : Reg) (s : State) : exec (.addI x) s = .next (s.setI (s.I + s.regWord x)) := rfl

theorem exec_ldF (x : Reg) (s : State) : exec (.ldF x) s = .next (s.setI (glyphAddress (s.regWord x))) := rfl

/-! ### Operands -/

/-- A register keeps its value as a word (30_encoding.md R73). -/
@[simp] theorem State.toNat_regWord (s : State) (r : Reg) : (s.regWord r).toNat = (s.reg r).toNat :=
  BitVec.toNat_setWidth_of_le (by decide)

theorem State.nextRand_cons (s : State) {b : Byte} {rest : List Byte} (h : s.inputs.randBytes = b :: rest) :
    s.nextRand = b := by
  rw [State.nextRand, h]

theorem State.nextRand_nil (s : State) (h : s.inputs.randBytes = []) :
    s.nextRand = Config.randByte s.inputs.drawsDone := by
  rw [State.nextRand, h]

theorem State.takeRand_inputs (s : State) : s.takeRand.inputs =
    { s.inputs with randBytes := s.inputs.randBytes.tail, drawsDone := s.inputs.drawsDone + 1 } := rfl

/-! ### The statements -/

/-- Settles O16: each of the four arms is one `setReg`. -/
theorem flaglessArithmetic : Obligations.FlaglessArithmetic := by
  intro x y kk s
  rw [← byte_add_eq, exec_addImm, exec_orReg, exec_andReg, exec_xorReg]
  exact ⟨writesReg_setReg s x _, writesReg_setReg s x _, writesReg_setReg s x _, writesReg_setReg s x _⟩

/-- Settles O17: ADD is one flag-writing update, its flag the carry out of bit 7. -/
theorem addSetsCarry : Obligations.AddSetsCarry := by
  intro x y s
  rw [← byte_add_eq, exec_addReg]
  exact writesRegFlag_setRegFlag s x _ _

/-- Settles O18: SUB and SUBN are one flag-writing update each, with the operands exchanged. -/
theorem subtractsSetNotBorrow : Obligations.SubtractsSetNotBorrow := by
  intro x y s
  rw [← byte_sub_eq, ← byte_sub_eq, exec_sub, exec_subn]
  exact ⟨writesRegFlag_setRegFlag s x _ _, writesRegFlag_setRegFlag s x _ _⟩

/-- Settles O19: SHR and SHL are one flag-writing update each, of `Vx` alone. -/
theorem shiftsMoveByOne : Obligations.ShiftsMoveByOne := by
  intro x y s
  rw [← byte_shiftRight_eq, ← byte_shiftLeft_eq, ← lowBit_eq, ← highBit_eq, exec_shr x y, exec_shl x y]
  exact ⟨writesRegFlag_setRegFlag s x _ _, writesRegFlag_setRegFlag s x _ _⟩

/-- Settles O20: the drawn byte is the port's next one, and a masked bit is 0. -/
theorem randomByteIsMasked : Obligations.RandomByteIsMasked := by
  intro x kk s
  refine ⟨_, exec_rnd x kk s, fun r rest h => ?_, fun h => ?_, fun k hk => ?_, fun q hq => ?_, rfl, rfl⟩
  · rw [State.reg_setReg_self, State.nextRand_cons s h, State.setReg_inputs, State.takeRand_inputs, h]
    exact ⟨rfl, rfl⟩
  · rw [State.reg_setReg_self, State.nextRand_nil s h, State.setReg_inputs, State.takeRand_inputs, h]
    exact ⟨rfl, rfl⟩
  · rw [State.reg_setReg_self, BitVec.getLsbD_and, hk, Bool.and_false]
  · rw [State.reg_setReg_of_ne _ _ hq, State.takeRand_reg]

/-- Settles O22: ADD I wraps at 16 bits; 0x050 + 5 * 255 does not reach 65536. -/
theorem indexArithmetic : Obligations.IndexArithmetic := by
  intro x s
  refine ⟨⟨_, exec_addI x s, ?_, rfl⟩, ⟨_, exec_ldF x s, ?_, rfl⟩⟩
  · rw [State.setI_I, BitVec.toNat_add, State.toNat_regWord]
  · have hr := (s.reg x).isLt
    rw [State.setI_I, glyphAddress, BitVec.toNat_add, BitVec.toNat_mul, State.toNat_regWord]
    simp only [BitVec.toNat_ofNat, Config.fontBase]
    omega

end Sys2Proof.Machine
end

section
/-! PROOFS. Memory (spec/20_memory.md) and the memory transfers (spec/43_index_memory.md): what a store and a load of a range answer,
in range and out of it, how a fetch reads, and the statements they settle. -/

namespace Sys2Proof.Machine

open Statement

/-! ### A range of bytes at `I` (R54, R55) -/

theorem State.storeBytes_fits {s : State} {vs : List Byte} (h : s.I.toNat + vs.length ≤ 4096) :
    s.storeBytes vs = .ok (s.setMem (s.mem.writeSlice s.I.toNat vs)) := by
  rcases s.storeBytes_cases vs with ⟨e, -⟩ | ⟨-, hpos, hbad⟩
  · exact e
  · rw [Config.memSize] at hbad; omega

/-- `top` is the highest address of the range. -/
theorem State.storeBytes_bad {s : State} {vs : List Byte} {top : Nat} (htop : s.I.toNat + vs.length = top + 1)
    (hpos : 0 < vs.length) (h : 4096 ≤ top) : s.storeBytes vs = .error top := by
  rcases s.storeBytes_cases vs with ⟨-, hfit⟩ | ⟨e, -⟩
  · rw [Config.memSize] at hfit; omega
  · rw [e, htop, Nat.add_sub_cancel]

theorem State.loadBytes_fits {s : State} {n : Nat} (h : n = 0 ∨ s.I.toNat + n ≤ 4096) :
    s.loadBytes n = .ok (s.mem.readSlice s.I.toNat n) := by
  rcases s.loadBytes_cases n with ⟨e, -⟩ | ⟨-, hpos, hbad⟩
  · exact e
  · rw [Config.memSize] at hbad; omega

theorem State.loadBytes_bad {s : State} {n top : Nat} (htop : s.I.toNat + n = top + 1) (hpos : 0 < n) (h : 4096 ≤ top) :
    s.loadBytes n = .error top := by
  rcases s.loadBytes_cases n with ⟨-, hfit⟩ | ⟨e, -⟩
  · rw [Config.memSize] at hfit; omega
  · rw [e, htop, Nat.add_sub_cancel]

/-- A store in range meets the whole of `StoresBytes`. -/
theorem storesBytes_writeSlice {s : State} {vs : List Byte} (hm : s.mem.Wf) (h : s.I.toNat + vs.length ≤ 4096) :
    StoresBytes (.next (s.setMem (s.mem.writeSlice s.I.toNat vs))) s s.I.toNat vs :=
  ⟨_, rfl, fun _ hk => Memory.read_writeSlice_inside hm.1 _ _ hk, fun _ ha => Memory.read_writeSlice_outside _ ha,
    Memory.wf_writeSlice hm h, rfl⟩

/-! ### The registers as bytes -/

theorem State.regsUpTo_eq (s : State) (x : Reg) : s.regsUpTo x = ((List.finRange 16).take (x.val + 1)).map s.reg := by
  have hV : s.V.toList = (List.finRange 16).map s.reg := by
    apply List.ext_getElem
    · simp
    · intro i h1 h2
      simp [State.reg]
  rw [State.regsUpTo, hV, List.map_take]

theorem State.getElem_regsUpTo (s : State) {x q : Reg} (h : q ≤ x) (hq : q.val < (s.regsUpTo x).length) :
    (s.regsUpTo x)[q.val] = s.reg q :=
  List.getElem_eq_iff _ |>.2 (s.getElem?_regsUpTo x q h)

/-- The registers after a load: those up to `Vx` hold the bytes read, the others are as they were. -/
theorem reg_writeRegs_readSlice (s : State) (m : Memory) (a : Nat) (x q : Reg) :
    ({ s with V := writeRegs s.V 0 (m.readSlice a (x.val + 1)) } : State).reg q =
      if q ≤ x then m.read (a + q.val) else s.reg q := by
  have hq : q.val < x.val + 1 ↔ q ≤ x := by rw [Fin.le_def]; omega
  simp only [State.reg, getElem_writeRegs, Nat.zero_le, if_true, Nat.sub_zero, Memory.getElem?_readSlice, hq]
  split <;> rfl

/-! ### The arms of `exec` -/

theorem exec_ldB_fits {s : State} {x : Reg} (h : s.I.toNat + 2 < 4096) :
    exec (.ldB x) s = .next (s.setMem (s.mem.writeSlice s.I.toNat (decimalDigits (s.reg x)))) := by
  have e := State.storeBytes_fits (s := s) (vs := decimalDigits (s.reg x)) h
  simp only [exec, execLdB, e]

theorem exec_ldB_bad {s : State} {x : Reg} (h : 4096 ≤ s.I.toNat + 2) :
    exec (.ldB x) s = .fault (.memRange s.fetchedFrom (encode (.ldB x)) (s.I.toNat + 2)) := by
  have e := State.storeBytes_bad (s := s) (vs := decimalDigits (s.reg x)) (top := s.I.toNat + 2) rfl (Nat.succ_pos _) h
  simp only [exec, execLdB, e, State.raiseMemRange]

theorem exec_ldMemVx_fits {s : State} {x : Reg} (h : s.I.toNat + x.val < 4096) :
    exec (.ldMemVx x) s = .next (s.setMem (s.mem.writeSlice s.I.toNat (s.regsUpTo x))) := by
  have e := State.storeBytes_fits (s := s) (vs := s.regsUpTo x) (by rw [s.length_regsUpTo]; exact h)
  simp only [exec, execLdMemVx, e]

theorem exec_ldMemVx_bad {s : State} {x : Reg} (h : 4096 ≤ s.I.toNat + x.val) :
    exec (.ldMemVx x) s = .fault (.memRange s.fetchedFrom (encode (.ldMemVx x)) (s.I.toNat + x.val)) := by
  have hlen := s.length_regsUpTo x
  have e := State.storeBytes_bad (s := s) (vs := s.regsUpTo x) (by rw [hlen, Nat.add_assoc]) (by omega) h
  simp only [exec, execLdMemVx, e, State.raiseMemRange]

theorem exec_ldVxMem_fits {s : State} {x : Reg} (h : s.I.toNat + x.val < 4096) :
    exec (.ldVxMem x) s = .next { s with V := writeRegs s.V 0 (s.mem.readSlice s.I.toNat (x.val + 1)) } := by
  have e := State.loadBytes_fits (s := s) (n := x.val + 1) (.inr h)
  simp only [exec, execLdVxMem, e]

theorem exec_ldVxMem_bad {s : State} {x : Reg} (h : 4096 ≤ s.I.toNat + x.val) :
    exec (.ldVxMem x) s = .fault (.memRange s.fetchedFrom (encode (.ldVxMem x)) (s.I.toNat + x.val)) := by
  have e := State.loadBytes_bad (s := s) (n := x.val + 1) (top := s.I.toNat + x.val) rfl (Nat.succ_pos _) h
  simp only [exec, execLdVxMem, e, State.raiseMemRange]

theorem exec_drw_bad {s : State} {x y : Reg} {n : Count} (hpos : 0 < n.val) (h : 4096 ≤ s.I.toNat + n.val - 1) :
    exec (.drw x y n) s = .fault (.memRange s.fetchedFrom (encode (.drw x y n)) (s.I.toNat + n.val - 1)) := by
  have e := State.loadBytes_bad (s := s) (n := n.val) (top := s.I.toNat + n.val - 1) (by omega) hpos h
  simp only [exec, execDrw, e, State.raiseMemRange]

/-! ### The statements on stores and loads -/

/-- Settles O23: a store of the three digits. -/
theorem decimalDigitsStored : Obligations.DecimalDigitsStored := by
  intro x s hm h
  rw [exec_ldB_fits h]
  exact storesBytes_writeSlice (vs := decimalDigits (s.reg x)) hm h

/-- Settles O24: a store of `V0` to `Vx`. -/
theorem registersStored : Obligations.RegistersStored := by
  intro x s hm h
  rw [exec_ldMemVx_fits h, ← s.regsUpTo_eq]
  refine storesBytes_writeSlice hm ?_
  rw [s.length_regsUpTo]
  exact h

/-- Settles O25: register `q` takes byte `q` of the slice, up to `Vx`. -/
theorem registersLoaded : Obligations.RegistersLoaded := by
  intro x s h
  refine ⟨_, exec_ldVxMem_fits h, fun q hq => ?_, fun q hq => ?_, rfl⟩
  · rw [reg_writeRegs_readSlice, if_pos hq]
  · rw [reg_writeRegs_readSlice, if_neg (not_le.2 hq)]

/-- Settles O26: each arm's range check, with the word of the instruction as a number. -/
theorem dataRangeFaultsRaised : Obligations.DataRangeFaultsRaised := by
  intro x y n s
  have hB : encode (.ldB x) = BitVec.ofNat 16 (0xF033 + 256 * x.val) :=
    encodeXKK_eq_ofNat (by simp only [BitVec.toNat_ofNat]; omega)
  have hStore : encode (.ldMemVx x) = BitVec.ofNat 16 (0xF055 + 256 * x.val) :=
    encodeXKK_eq_ofNat (by simp only [BitVec.toNat_ofNat]; omega)
  have hLoad : encode (.ldVxMem x) = BitVec.ofNat 16 (0xF065 + 256 * x.val) :=
    encodeXKK_eq_ofNat (by simp only [BitVec.toNat_ofNat]; omega)
  have hDraw : encode (.drw x y n) = BitVec.ofNat 16 (0xD000 + 256 * x.val + 16 * y.val + n.val) :=
    encodeXYN_eq_ofNat (by simp only [toNat_digit, BitVec.toNat_ofNat]; omega)
  rw [← hB, ← hStore, ← hLoad, ← hDraw]
  exact ⟨exec_ldB_bad, fun h => ⟨exec_ldMemVx_bad h, exec_ldVxMem_bad h⟩, exec_drw_bad⟩

/-- Settles O27: the load reads at `I + q` the byte the store has put there, which is `Vq`. -/
theorem loadUndoesStore : Obligations.LoadUndoesStore := by
  intro x s hm h
  refine ⟨_, exec_ldMemVx_fits h, fun u hmem hI => ?_⟩
  rw [State.setMem_mem] at hmem
  refine ⟨_, exec_ldVxMem_fits (hI ▸ h), fun q hq => ?_⟩
  have hlt : q.val < (s.regsUpTo x).length := by
    rw [s.length_regsUpTo]
    exact Nat.lt_succ_of_le hq
  rw [reg_writeRegs_readSlice, if_pos hq, hmem, hI, Memory.read_writeSlice_inside hm.1 _ _ hlt, s.getElem_regsUpTo hq]

/-! ### Fetch (R51 to R53) -/

theorem State.toNat_fetchWord (s : State) :
    s.fetchWord.toNat = (s.mem.read s.pc.toNat).toNat * 256 + (s.mem.read (s.pc.toNat + 1)).toNat :=
  toNat_appendBits _ _

theorem State.fetchable_iff (s : State) : s.fetchable = true ↔ s.pc.toNat < 4095 := by
  rw [← Bool.not_eq_false, State.fetchable_eq_false_iff, not_le]

/-- Settles O28: the two bytes of the fetch are bytes 0 and 1 of the store. -/
theorem fetchSeesStores : Obligations.FetchSeesStores := by
  intro x s hm hx h
  refine ⟨_, exec_ldMemVx_fits h, fun u hmem hpc => ?_⟩
  rw [State.setMem_mem] at hmem
  have h1 : (1 : Reg) ≤ x := hx
  have hlen := s.length_regsUpTo x
  have hread0 : u.mem.read (s.I.toNat + 0) = s.reg 0 := by
    rw [hmem, Memory.read_writeSlice_inside hm.1 _ _ (show 0 < (s.regsUpTo x).length by omega)]
    exact s.getElem_regsUpTo (Fin.zero_le x) _
  have hread1 : u.mem.read (s.I.toNat + 1) = s.reg 1 := by
    rw [hmem, Memory.read_writeSlice_inside hm.1 _ _ (show 1 < (s.regsUpTo x).length by omega)]
    exact s.getElem_regsUpTo h1 _
  rw [State.fetchable_iff, State.toNat_fetchWord, hpc, hread1]
  exact ⟨by omega, by rw [← hread0, Nat.add_zero]⟩

/-- Settles O29: a word is its high byte before its low byte. -/
theorem fetchIsBigEndian : Obligations.FetchIsBigEndian := fun s => ⟨s.toNat_fetchWord, s.fetchable_iff⟩

/-! ### The canonical form -/

/-- Settles O30: the three laws of a write. -/
theorem memoryReadsLastWrite : Obligations.MemoryReadsLastWrite := fun m a _ v hm ha =>
  ⟨Memory.read_write_self hm.1 a v, fun hb => Memory.read_write_of_ne hb m v, Memory.wf_write hm ha v⟩

/-- An address no entry lists reads as its reset contents. -/
theorem Memory.read_of_unlisted {m : Memory} {a : Nat} (h : ∀ c ∈ m, a ≠ c.1) : m.read a = resetByte a := by
  induction m with
  | nil => rfl
  | cons c m ih =>
    rw [List.forall_mem_cons] at h
    rw [Memory.read, if_neg h.1, ih h.2]

theorem Memory.wf_tail {c : Host.Cell} {m : Memory} (h : Memory.Wf (c :: m)) : m.Wf :=
  ⟨h.1.tail, fun d hd => h.2 d (List.mem_cons_of_mem c hd)⟩

/-- No address before the first entry of a canonical memory is listed. -/
theorem Memory.read_before_head {c : Host.Cell} {m : Memory} (h : Memory.Wf (c :: m)) {a : Nat} (ha : a < c.1) :
    Memory.read (c :: m) a = resetByte a := by
  refine Memory.read_of_unlisted fun d hd => ?_
  rcases List.mem_cons.1 hd with rfl | hd
  · exact ha.ne
  · exact (ha.trans (List.rel_of_pairwise_cons h.1 hd)).ne

/-- The first entry of a canonical memory says more than the reset contents do. -/
theorem Memory.read_head_ne {c : Host.Cell} {m : Memory} (h : Memory.Wf (c :: m)) :
    Memory.read (c :: m) c.1 ≠ resetByte c.1 := by
  rw [Memory.read, if_pos rfl]
  exact (h.2 c List.mem_cons_self).2

/-- Memories that read alike after their common first entry has been put in front read alike without it. -/
theorem Memory.read_tail_eq {c : Host.Cell} {m n : Memory} (hm : Memory.Wf (c :: m)) (hn : Memory.Wf (c :: n))
    (h : ∀ a, Memory.read (c :: m) a = Memory.read (c :: n) a) (a : Nat) : m.read a = n.read a := by
  have hunlisted : ∀ {k : Memory}, Memory.Wf (c :: k) → k.read c.1 = resetByte c.1 := fun hk =>
    Memory.read_of_unlisted fun e he => (List.rel_of_pairwise_cons hk.1 he).ne
  by_cases ha : a = c.1
  · rw [ha, hunlisted hm, hunlisted hn]
  · simpa only [Memory.read, if_neg ha] using h a

/-- Settles O31, by induction on both lists: of two first entries neither can come first, since the other memory would read the reset
contents there; so they are equal, and the rests read alike. -/
theorem canonicalMemoriesEqual : Obligations.CanonicalMemoriesEqual := by
  intro m
  induction m with
  | nil =>
    intro n _ hn h
    cases n with
    | nil => rfl
    | cons d n => exact absurd (h d.1).symm (Memory.read_head_ne hn)
  | cons c m ih =>
    intro n hm hn h
    cases n with
    | nil => exact absurd (h c.1) (Memory.read_head_ne hm)
    | cons d n =>
      rcases lt_trichotomy c.1 d.1 with hlt | haddr | hlt
      · exact absurd ((h c.1).trans (Memory.read_before_head hn hlt)) (Memory.read_head_ne hm)
      · have hbyte : c.2 = d.2 := by simpa [Memory.read, haddr] using h c.1
        obtain rfl : c = d := Prod.ext haddr hbyte
        rw [ih n (Memory.wf_tail hm) (Memory.wf_tail hn) (Memory.read_tail_eq hm hn h)]
      · exact absurd ((h d.1).symm.trans (Memory.read_before_head hm hlt)) (Memory.read_head_ne hn)

end Sys2Proof.Machine
end

section
/-! PROOFS. The display (spec/44_display.md): what CLS and DRW answer, the sprite bit on a pixel in the words of the statements, and
the statements they settle. -/

namespace Sys2Proof.Machine

open Statement

/-! ### The arms of `exec` -/

theorem exec_cls (s : State) : exec .cls s = .next (s.setPix blankGrid) := rfl

/-- The draw that DRW makes: the slice at `I`, at the coordinates in `Vx` and `Vy`. -/
def State.drawing (s : State) (x y : Reg) (n : Count) : Drawing :=
  drawSprite s.pix (s.reg x) (s.reg y) (s.mem.readSlice s.I.toNat n.val)

/-- The state DRW leaves after a draw. -/
def State.drawn (s : State) (d : Drawing) : State := ((s.setPix d.grid).setDirty true).setReg vF (flagByte d.coll)

theorem exec_drw_fits {s : State} {n : Count} (h : n.val = 0 ∨ s.I.toNat + n.val ≤ 4096) (x y : Reg) :
    exec (.drw x y n) s = .next (s.drawn (s.drawing x y n)) := by
  simp only [exec, execDrw, State.loadBytes_fits h]
  rfl

/-! ### A draw, pixel by pixel -/

/-- The sprite bit on a pixel, as the statements write it. -/
theorem spriteCovers_readSlice (s : State) (x0 y0 n r c : Nat) :
    spriteCovers (s.mem.readSlice s.I.toNat n) x0 y0 r c = true ↔ SpriteCovers s x0 y0 n r c := by
  rw [spriteCovers, Memory.getElem?_readSlice, Bool.and_eq_true, decide_eq_true_eq, SpriteCovers, Config.dispH, Config.dispW]
  by_cases hn : r - y0 < n
  · simp only [if_pos hn, Option.map_some, Option.getD_some, spriteBit, Bool.and_eq_true, decide_eq_true_eq]
    constructor
    · rintro ⟨⟨hy, hr, hc⟩, ⟨hx, hx8⟩, hbit⟩
      exact ⟨hy, by omega, hr, hx, hx8, hc, hbit⟩
    · rintro ⟨hy, -, hr, hx, hx8, hc, hbit⟩
      exact ⟨⟨hy, hr, hc⟩, ⟨hx, hx8⟩, hbit⟩
  · simp only [if_neg hn, Option.map_none, Option.getD_none, Bool.false_eq_true, and_false, false_iff]
    rintro ⟨hy, hrow, -⟩
    omega

theorem State.drawing_pixel (s : State) (x y : Reg) (n : Count) (r c : Nat) :
    (s.drawing x y n).grid.pixel r c =
      (s.pix.pixel r c ^^ spriteCovers (s.mem.readSlice s.I.toNat n.val) (s.reg x).toNat (s.reg y).toNat r c) :=
  drawSprite_pixel _ _ _ _ _ _

theorem State.drawing_coll (s : State) (x y : Reg) (n : Count) :
    (s.drawing x y n).coll = true ↔ ∃ r c,
      spriteCovers (s.mem.readSlice s.I.toNat n.val) (s.reg x).toNat (s.reg y).toNat r c = true ∧ s.pix.pixel r c = true :=
  drawSprite_coll _ _ _ _

theorem State.drawn_vF (s : State) (d : Drawing) : (s.drawn d).reg vF = if d.coll then 0x01#8 else 0x00#8 :=
  State.reg_setReg_self _ _ _

@[simp] theorem State.drawn_pix (s : State) (d : Drawing) : (s.drawn d).pix = d.grid := rfl

/-- A blank display has no pixel to collide with. -/
theorem State.drawing_coll_of_blank {s : State} (h : s.pix = blankGrid) (x y : Reg) (n : Count) :
    (s.drawing x y n).coll = false := by
  rw [← Bool.not_eq_true, State.drawing_coll]
  rintro ⟨r, c, -, hset⟩
  rw [h, Grid.pixel_blank] at hset
  exact absurd hset (by decide)

/-! ### The statements -/

/-- Settles O32: every pixel of the blank display is off. -/
theorem clearTurnsAllPixelsOff : Obligations.ClearTurnsAllPixelsOff := fun s =>
  ⟨_, exec_cls s, fun r c => Grid.pixel_blank r c, rfl⟩

/-- Settles O33: the exclusive or of `drawSprite_pixel` and the collision of `drawSprite_coll`. -/
theorem drawXorsSprite : Obligations.DrawXorsSprite := by
  intro x y n s h
  refine ⟨_, exec_drw_fits h x y, fun r c => ?_, ?_, ?_, fun q hq => State.reg_setReg_of_ne _ _ hq, rfl, rfl⟩
  · have hbit : spriteCovers (s.mem.readSlice s.I.toNat n.val) (s.reg x).toNat (s.reg y).toNat r c =
        decide (SpriteCovers s (s.reg x).toNat (s.reg y).toNat n.val r c) := by
      rw [Bool.eq_iff_iff, spriteCovers_readSlice, decide_eq_true_eq]
    rw [← hbit]
    exact s.drawing_pixel x y n r c
  · rintro ⟨r, c, hcov, hset⟩
    rw [State.drawn_vF, if_pos ((s.drawing_coll x y n).2 ⟨r, c, (spriteCovers_readSlice ..).2 hcov, hset⟩)]
  · intro hclear
    rw [State.drawn_vF, if_neg]
    rw [State.drawing_coll]
    rintro ⟨r, c, hcov, hset⟩
    rw [hclear r c ((spriteCovers_readSlice ..).1 hcov)] at hset
    exact absurd hset (by decide)

/-- Settles O34: the same sprite bit is XORed into each pixel twice; from a blank display each bit the first draw has set is one the
second collides with. -/
theorem drawingTwiceRestores : Obligations.DrawingTwiceRestores := by
  intro x y n s h
  refine ⟨_, exec_drw_fits h x y, fun hblank => ?_, fun u hmem hI hpix hx hy => ?_⟩
  · rw [State.drawn_vF, s.drawing_coll_of_blank hblank]
    rfl
  · have htwice (r c : Nat) := u.drawing_pixel x y n r c
    have hagain := u.drawing_coll x y n
    rw [hmem, hI, hx, hy, hpix] at hagain
    simp only [hmem, hI, hx, hy, hpix] at htwice
    refine ⟨_, exec_drw_fits (hI ▸ h) x y, Grid.ext_pixel fun r c => ?_, fun hblank hset => ?_⟩
    · refine (htwice r c).trans ?_
      rw [State.drawn_pix, s.drawing_pixel, Bool.xor_assoc, Bool.xor_self, Bool.xor_false]
    · rw [State.drawn_vF, if_pos (hagain.2 ?_)]
      by_contra hnone
      refine hset (Grid.ext_pixel fun r c => ?_)
      rw [Grid.pixel_blank, ← Bool.not_eq_true]
      intro hon
      refine hnone ⟨r, c, ?_, hon⟩
      have hbit := s.drawing_pixel x y n r c
      rw [hblank, Grid.pixel_blank, Bool.false_xor] at hbit
      exact hbit ▸ hon

/-- Settles O35: `present_eq` for a dirty and for a clean display. -/
theorem presentSendsDirtyFrame : Obligations.PresentSendsDirtyFrame := by
  refine fun s => ⟨fun h => ?_, fun h => ?_⟩
  · rw [State.present_eq, h]; rfl
  · rw [State.present, h]; rfl

end Sys2Proof.Machine
end

section
/-! PROOFS. Keys and timers (spec/45_keys_timers.md, spec/60_exceptions.md section 4): what the key skips, the key wait and the timer
transfers answer, what a number of timer ticks leaves, and the statements they settle. -/

namespace Sys2Proof.Machine

open Statement

/-! ### The arms of `exec` -/

theorem exec_skp_valid {s : State} {x : Reg} (h : (s.reg x).toNat < 16) :
    exec (.skp x) s = .next (s.skipIf (s.keyPressed (s.reg x).toNat)) := if_neg (Nat.not_le.2 h)

theorem exec_sknp_valid {s : State} {x : Reg} (h : (s.reg x).toNat < 16) :
    exec (.sknp x) s = .next (s.skipIf (!s.keyPressed (s.reg x).toNat)) := if_neg (Nat.not_le.2 h)

theorem exec_ldVxK_none {s : State} (h : s.lowestKey = none) (x : Reg) :
    exec (.ldVxK x) s = .next (s.setPc (s.pc - 2#16)) := by
  simp only [exec, execLdVxK, h]

theorem exec_ldVxK_some {s : State} {k : Nat} (h : s.lowestKey = some k) (x : Reg) :
    exec (.ldVxK x) s = .next (s.setReg x (BitVec.ofNat 8 k)) := by
  simp only [exec, execLdVxK, h]

theorem exec_ldVxDt (x : Reg) (s : State) : exec (.ldVxDt x) s = .next (s.setReg x s.DT) := rfl

theorem exec_ldDtVx (x : Reg) (s : State) : exec (.ldDtVx x) s = .next (s.setDT (s.reg x)) := rfl

theorem exec_ldStVx (x : Reg) (s : State) : exec (.ldStVx x) s = .next (s.setST (s.reg x)) := rfl

/-! ### The least pressed key (R166) -/

theorem State.lowestKey_eq_none_iff (s : State) : s.lowestKey = none ↔ ∀ k < 16, s.keys.getLsbD k = false := by
  simp [State.lowestKey, State.keyPressed]

theorem State.lowestKey_eq_some {s : State} {k : Nat} (hk : k < 16) (hon : s.keys.getLsbD k = true)
    (hoff : ∀ j < k, s.keys.getLsbD j = false) : s.lowestKey = some k := by
  rw [State.lowestKey, List.find?_range_eq_some]
  exact ⟨hon, List.mem_range.2 hk, fun j hj => by rw [State.keyPressed, hoff j hj, Bool.not_false]⟩

/-! ### Timer ticks -/

/-- One tick takes 1 from a byte that is not 0. -/
theorem toNat_tickDown (b : Byte) : (b - (if b = 0#8 then 0#8 else 1#8)).toNat = b.toNat - 1 := by
  by_cases h : b = 0#8
  · rw [if_pos h, h]; rfl
  · have hb := b.isLt
    have hpos : b.toNat ≠ 0 := fun e => h (BitVec.eq_of_toNat_eq e)
    rw [if_neg h, BitVec.toNat_sub, BitVec.toNat_ofNat]
    omega

theorem State.timerTick_DT (s : State) : s.timerTick.DT.toNat = s.DT.toNat - 1 := by
  rw [State.timerTick_eq]; exact toNat_tickDown s.DT

theorem State.timerTick_ST (s : State) : s.timerTick.ST.toNat = s.ST.toNat - 1 := by
  rw [State.timerTick_eq]; exact toNat_tickDown s.ST

/-- One tick emits one beep if the sound timer is not 0 (decision D22, log 21). -/
theorem State.timerTick_out (s : State) :
    s.timerTick.out = List.replicate (min 1 s.ST.toNat) Output.beep ++ s.out := by
  rw [State.timerTick_eq]
  by_cases h : s.ST = 0#8
  · simp [h]
  · have hpos : 1 ≤ s.ST.toNat := Nat.one_le_iff_ne_zero.2 fun e => h (BitVec.eq_of_toNat_eq e)
    simp [h, Nat.min_eq_left hpos]

theorem State.timerTick_eq_with (s : State) :
    s.timerTick = { s with DT := s.timerTick.DT, ST := s.timerTick.ST, out := s.timerTick.out } := by
  rw [State.timerTick_eq]

/-! ### The statements -/

/-- Settles O36: both arms are a skip on the bit of the key. -/
theorem keySkips : Obligations.KeySkips := by
  intro x s h
  rw [exec_skp_valid h, exec_sknp_valid h]
  exact ⟨congrArg _ (s.skipIf_of_iff Iff.rfl), congrArg _ (s.skipIf_of_iff (iff_of_eq (Bool.not_eq_true' _)))⟩

/-- Settles O37: by the two cases of the least pressed key. -/
theorem keyWaitRewindsOrLoads : Obligations.KeyWaitRewindsOrLoads := by
  refine fun x s => ⟨fun h => exec_ldVxK_none (s.lowestKey_eq_none_iff.2 h) x, fun k hk hon hoff => ?_⟩
  rw [exec_ldVxK_some (State.lowestKey_eq_some hk hon hoff)]
  exact writesReg_setReg s x _

/-- Settles O38: each transfer is one update. -/
theorem timerTransfers : Obligations.TimerTransfers := fun x s =>
  ⟨exec_ldVxDt x s ▸ writesReg_setReg s x s.DT, exec_ldDtVx x s, exec_ldStVx x s⟩

/-- Settles O39, by induction on the number of ticks, the last one split off. -/
theorem timersReachZeroAndStay : Obligations.TimersReachZeroAndStay := by
  intro k s
  induction k with
  | zero => simp
  | succ k ih =>
    obtain ⟨hDT, hST, hout, hframe⟩ := ih
    rw [Function.iterate_succ_apply']
    generalize State.timerTick^[k] s = u at *
    refine ⟨by rw [State.timerTick_DT, hDT, Nat.sub_sub], by rw [State.timerTick_ST, hST, Nat.sub_sub], ?_, ?_⟩
    · rw [State.timerTick_out, hout, hST, ← List.append_assoc, List.replicate_append_replicate]
      congr 2
      omega
    · rw [State.timerTick_eq_with, hframe]

end Sys2Proof.Machine
end

section
/-! PROOFS. What any instruction can do, said once: its one fault, or one of the updates listed in `Effect`. The statements over all
instructions are short case analyses of it. -/

namespace Sys2Proof.Machine

open Statement

/-- The instructions that skip or do not (spec/41_skips.md, spec/45_keys_timers.md). -/
def Skips : Instr → Prop
  | .seImm _ _ | .sneImm _ _ | .seReg _ _ _ | .sneReg _ _ _ | .skp _ | .sknp _ => True
  | _ => False

/-- What an instruction that does not fault can do to a state: the update of each kind of instruction. -/
inductive Effect (s : State) : Instr → State → Prop
  | nothing : Effect s .nop0 s
  | clear : Effect s .cls (s.setPix blankGrid)
  | diag {i op} (hi : (∃ a, i = .sys a) ∨ ∃ w, i = .unknown w) : Effect s i (s.emit (.diag op))
  | jump {a} : Effect s (.jp a) (s.setPc (wordOfAddr a))
  | jumpV0 {a} : Effect s (.jpV0 a) (s.setPc (s.regWord 0 + wordOfAddr a))
  | call {a k} : Effect s (.call a) (s.called k (wordOfAddr a))
  | ret {k : Fin 16} : Effect s .ret { s with pc := s.stack[k.val], sp := entryBelow k }
  | skip {i c} (hi : Skips i) : Effect s i (s.skipIf c)
  | rewind {x} : Effect s (.ldVxK x) (s.setPc (s.pc - 2#16))
  | write {i x v} (hx : IsDest i x) (hf : ¬ WritesFlag i) : Effect s i (s.setReg x v)
  | writeFlag {i x v f} (hx : IsDest i x) (hf : WritesFlag i) : Effect s i (s.setRegFlag x v f)
  | random {x kk v} : Effect s (.rnd x kk) (s.takeRand.setReg x v)
  | index {i a} (hi : (∃ a, i = .ldI a) ∨ (∃ x, i = .addI x) ∨ ∃ x, i = .ldF x) : Effect s i (s.setI a)
  | delay {x v} : Effect s (.ldDtVx x) (s.setDT v)
  | sound {x v} : Effect s (.ldStVx x) (s.setST v)
  | draw {x y n d} : Effect s (.drw x y n) (s.drawn d)
  | store {i vs} (hi : (∃ x, i = .ldB x) ∨ ∃ x, i = .ldMemVx x) (hfit : s.I.toNat + vs.length ≤ Config.memSize) :
      Effect s i (s.setMem (s.mem.writeSlice s.I.toNat vs))
  | load {x : Reg} : Effect s (.ldVxMem x) { s with V := writeRegs s.V 0 (s.mem.readSlice s.I.toNat (x.val + 1)) }

/-- The record of a fault of instruction `i` in state `s` (60_exceptions.md R177). -/
def NamesFault (i : Instr) (s : State) (f : Fault) : Prop :=
  FaultCodeOf i f.code ∧ f.pcAtFetch = s.pc - 2#16 ∧ f.opcode = some (encode i)

/-- How an instruction ends: on its fault condition with a fault that names it, else with its effect. -/
def Ends (i : Instr) (s : State) : Prop :=
  (FaultsOn i s ∧ ∃ f, exec i s = .fault f ∧ NamesFault i s f) ∨
    (¬ FaultsOn i s ∧ ∃ t, exec i s = .next t ∧ Effect s i t)

section
variable {i : Instr} {s t : State} {f : Fault}

/-- An instruction without a fault condition. -/
theorem ends_of_next (hno : ¬ FaultsOn i s) (he : exec i s = .next t) (h : Effect s i t) : Ends i s := .inr ⟨hno, t, he, h⟩

theorem ends_of_fault (hf : FaultsOn i s) (he : exec i s = .fault f) (h : NamesFault i s f) : Ends i s := .inl ⟨hf, f, he, h⟩

end

theorem ends_call (a : Addr12) (s : State) : Ends (.call a) s := by
  by_cases h : s.spInt = 15
  · exact ends_of_fault h (exec_call_full h a) ⟨rfl, rfl, rfl⟩
  · obtain ⟨k, -, he⟩ := exec_call_room h a
    exact ends_of_next h he .call

theorem ends_ret (s : State) : Ends .ret s := by
  cases h : s.sp with
  | none => exact ends_of_fault (s.spInt_eq_neg_one_iff.2 h) (exec_ret_empty h) ⟨rfl, rfl, rfl⟩
  | some k =>
    have hlive : s.spInt ≠ -1 := fun e => by simp [s.spInt_eq_neg_one_iff.1 e] at h
    exact ends_of_next hlive (exec_ret_live h) .ret

theorem ends_drw (x y : Reg) (n : Count) (s : State) : Ends (.drw x y n) s := by
  by_cases h : FaultsOn (.drw x y n) s
  · exact ends_of_fault h (exec_drw_bad h.1 h.2) ⟨rfl, rfl, rfl⟩
  · have hfit : n.val = 0 ∨ s.I.toNat + n.val ≤ 4096 := by
      simp only [FaultsOn] at h
      omega
    exact ends_of_next h (exec_drw_fits hfit x y) .draw

theorem ends_ldB (x : Reg) (s : State) : Ends (.ldB x) s := by
  by_cases h : 4096 ≤ s.I.toNat + 2
  · exact ends_of_fault h (exec_ldB_bad h) ⟨rfl, rfl, rfl⟩
  · exact ends_of_next h (exec_ldB_fits (Nat.lt_of_not_le h)) (.store (.inl ⟨x, rfl⟩) (Nat.lt_of_not_le h))

theorem ends_ldMemVx (x : Reg) (s : State) : Ends (.ldMemVx x) s := by
  by_cases h : 4096 ≤ s.I.toNat + x.val
  · exact ends_of_fault h (exec_ldMemVx_bad h) ⟨rfl, rfl, rfl⟩
  · have hfit : s.I.toNat + (s.regsUpTo x).length ≤ Config.memSize := by
      rw [s.length_regsUpTo]
      exact Nat.lt_of_not_le h
    exact ends_of_next h (exec_ldMemVx_fits (Nat.lt_of_not_le h)) (.store (.inr ⟨x, rfl⟩) hfit)

theorem ends_ldVxMem (x : Reg) (s : State) : Ends (.ldVxMem x) s := by
  by_cases h : 4096 ≤ s.I.toNat + x.val
  · exact ends_of_fault h (exec_ldVxMem_bad h) ⟨rfl, rfl, rfl⟩
  · exact ends_of_next h (exec_ldVxMem_fits (Nat.lt_of_not_le h)) .load

theorem ends_skp (x : Reg) (s : State) : Ends (.skp x) s := by
  by_cases h : 16 ≤ (s.reg x).toNat
  · exact ends_of_fault h (exec_keySkip_invalid h).1 ⟨rfl, rfl, rfl⟩
  · exact ends_of_next h (exec_skp_valid (Nat.lt_of_not_le h)) (.skip trivial)

theorem ends_sknp (x : Reg) (s : State) : Ends (.sknp x) s := by
  by_cases h : 16 ≤ (s.reg x).toNat
  · exact ends_of_fault h (exec_keySkip_invalid h).2 ⟨rfl, rfl, rfl⟩
  · exact ends_of_next h (exec_sknp_valid (Nat.lt_of_not_le h)) (.skip trivial)

theorem ends_ldVxK (x : Reg) (s : State) : Ends (.ldVxK x) s := by
  cases h : s.lowestKey with
  | none => exact ends_of_next id (exec_ldVxK_none h x) .rewind
  | some k => exact ends_of_next id (exec_ldVxK_some h x) (.write rfl id)

/-- All an instruction can do (60_exceptions.md section 1). -/
theorem exec_ends (i : Instr) (s : State) : Ends i s := by
  cases i with
  | nop0 => exact ends_of_next id (exec_nop0 s) .nothing
  | cls => exact ends_of_next id (exec_cls s) .clear
  | ret => exact ends_ret s
  | sys a => exact ends_of_next id (exec_sys a s) (.diag (.inl ⟨a, rfl⟩))
  | jp a => exact ends_of_next id (exec_jp a s) .jump
  | call a => exact ends_call a s
  | seImm x kk => exact ends_of_next id (exec_seImm x kk s) (.skip trivial)
  | sneImm x kk => exact ends_of_next id (exec_sneImm x kk s) (.skip trivial)
  | seReg x y low => exact ends_of_next id (exec_seReg x y low s) (.skip trivial)
  | ldImm x kk => exact ends_of_next id (exec_ldImm x kk s) (.write rfl id)
  | addImm x kk => exact ends_of_next id (exec_addImm x kk s) (.write rfl id)
  | ldReg x y => exact ends_of_next id (exec_ldReg x y s) (.write rfl id)
  | orReg x y => exact ends_of_next id (exec_orReg x y s) (.write rfl id)
  | andReg x y => exact ends_of_next id (exec_andReg x y s) (.write rfl id)
  | xorReg x y => exact ends_of_next id (exec_xorReg x y s) (.write rfl id)
  | addReg x y => exact ends_of_next id (exec_addReg x y s) (.writeFlag rfl trivial)
  | sub x y => exact ends_of_next id (exec_sub x y s) (.writeFlag rfl trivial)
  | shr x y => exact ends_of_next id (exec_shr x y s) (.writeFlag rfl trivial)
  | subn x y => exact ends_of_next id (exec_subn x y s) (.writeFlag rfl trivial)
  | shl x y => exact ends_of_next id (exec_shl x y s) (.writeFlag rfl trivial)
  | sneReg x y low => exact ends_of_next id (exec_sneReg x y low s) (.skip trivial)
  | ldI a => exact ends_of_next id (exec_ldI a s) (.index (.inl ⟨a, rfl⟩))
  | jpV0 a => exact ends_of_next id (exec_jpV0 a s) .jumpV0
  | rnd x kk => exact ends_of_next id (exec_rnd x kk s) .random
  | drw x y n => exact ends_drw x y n s
  | skp x => exact ends_skp x s
  | sknp x => exact ends_sknp x s
  | ldVxDt x => exact ends_of_next id (exec_ldVxDt x s) (.write rfl id)
  | ldVxK x => exact ends_ldVxK x s
  | ldDtVx x => exact ends_of_next id (exec_ldDtVx x s) .delay
  | ldStVx x => exact ends_of_next id (exec_ldStVx x s) .sound
  | addI x => exact ends_of_next id (exec_addI x s) (.index (.inr (.inl ⟨x, rfl⟩)))
  | ldF x => exact ends_of_next id (exec_ldF x s) (.index (.inr (.inr ⟨x, rfl⟩)))
  | ldB x => exact ends_ldB x s
  | ldMemVx x => exact ends_ldMemVx x s
  | ldVxMem x => exact ends_ldVxMem x s
  | unknown w => exact ends_of_next id (exec_unknown w s) (.diag (.inr ⟨w, rfl⟩))

theorem effect_of_exec {i : Instr} {s t : State} (h : exec i s = .next t) : Effect s i t := by
  rcases exec_ends i s with ⟨-, f, he, -⟩ | ⟨-, u, he, hu⟩
  · rw [h] at he; cases he
  · rw [h] at he; cases he; exact hu

theorem namesFault_of_exec {i : Instr} {s : State} {f : Fault} (h : exec i s = .fault f) : NamesFault i s f := by
  rcases exec_ends i s with ⟨-, g, he, hg⟩ | ⟨-, u, he, -⟩
  · rw [h] at he; cases he; exact hg
  · rw [h] at he; cases he

/-! ### The statements -/

/-- Settles O40: the two ways an instruction ends. -/
theorem everyInstructionRunsOrFaults : Obligations.EveryInstructionRunsOrFaults := by
  intro i s
  rcases exec_ends i s with ⟨hf, f, he, -⟩ | ⟨hf, t, he, -⟩
  · exact ⟨fun _ => ⟨f, he⟩, fun h => absurd hf h⟩
  · exact ⟨fun h => absurd h hf, fun _ => ⟨t, he⟩⟩

/-- Settles O41: the fault an instruction ends with names it. -/
theorem faultRecordsNameTheInstruction : Obligations.FaultRecordsNameTheInstruction := fun _ _ _ => namesFault_of_exec

theorem controlsPc_of_skips {i : Instr} (h : Skips i) : ControlsPc i := by
  cases i <;> trivial

/-- Settles O43: by the kind of the effect; each is an update of the fields its instructions are listed for. -/
theorem eachRegisterHasItsWriters : Obligations.EachRegisterHasItsWriters := by
  intro i s t h
  cases effect_of_exec h with
  | skip hi => simp [State.skipIf_eq, controlsPc_of_skips hi]
  | diag hi | index hi | store hi _ => simp [hi]
  | jump | jumpV0 | call | ret | rewind => simp [ControlsPc, State.called]
  | nothing | clear | write _ _ | writeFlag _ _ | random | delay | sound | draw | load => simp [State.setRegFlag, State.drawn]

theorem not_writesFlag_of_skips {i : Instr} (h : Skips i) : ¬ WritesFlag i := by
  intro hf
  cases i <;> contradiction

theorem flagByte_eq_zero_or_one (b : Bool) : flagByte b = 0x00#8 ∨ flagByte b = 0x01#8 := by
  cases b
  · exact .inl rfl
  · exact .inr rfl

/-- A register that is neither a destination nor a written flag is as it was. -/
theorem Effect.reg_eq {i : Instr} {s t : State} (h : Effect s i t) {q : Reg} (hq : ¬ IsDest i q)
    (hF : q = vF → ¬ WritesFlag i) : t.reg q = s.reg q := by
  cases h with
  | write hx _ => exact State.reg_setReg_of_ne _ _ fun e => hq (e ▸ hx)
  | writeFlag hx hf => exact s.reg_setRegFlag_other (by rintro rfl; exact hq hx) (fun e => hF e hf) _ _
  | random => exact State.reg_setReg_of_ne _ _ hq
  | draw => exact State.reg_setReg_of_ne _ _ fun e => hF e trivial
  | load => exact (reg_writeRegs_readSlice ..).trans (if_neg hq)
  | skip _ => rw [State.skipIf_eq, State.setPc_reg]
  | _ => rfl

/-- A flag writer leaves a flag in VF (10_state.md R21). -/
theorem Effect.vF_of_writesFlag {i : Instr} {s t : State} (h : Effect s i t) (hF : WritesFlag i) :
    t.reg vF = 0x00#8 ∨ t.reg vF = 0x01#8 := by
  cases h with
  | writeFlag _ _ => exact s.reg_setRegFlag_vF _ _ _ ▸ flagByte_eq_zero_or_one _
  | draw => exact State.reg_setReg_self _ vF _ ▸ flagByte_eq_zero_or_one _
  | write _ hf => exact absurd hF hf
  | skip hi => exact absurd hF (not_writesFlag_of_skips hi)
  | diag hi => rcases hi with ⟨_, rfl⟩ | ⟨_, rfl⟩ <;> exact hF.elim
  | index hi => rcases hi with ⟨_, rfl⟩ | ⟨_, rfl⟩ | ⟨_, rfl⟩ <;> exact hF.elim
  | store hi _ => rcases hi with ⟨_, rfl⟩ | ⟨_, rfl⟩ <;> exact hF.elim
  | _ => exact hF.elim

/-- Settles O42: the two facts on the effect's registers. -/
theorem onlyDestinationsAndFlagsAreWritten : Obligations.OnlyDestinationsAndFlagsAreWritten := fun _ _ _ h =>
  ⟨fun _ hq hF => (effect_of_exec h).reg_eq hq hF, (effect_of_exec h).vF_of_writesFlag⟩

end Sys2Proof.Machine
end

section
/-! PROOFS. Noninterference: the fields no instruction reads (but for the key snapshot, which three read) can be replaced before an
instruction or after it, with the same answer. -/

namespace Sys2Proof.Machine

open Statement

/-- The key snapshot, and the fields no instruction reads (10_state.md sections 7 and 9). -/
structure Hidden where
  keys : BitVec 16
  dirty : Bool
  accCpu : Rat
  accTimer : Rat
  rate : Nat
  phase : RunPhase
  out : List Output

def State.hide (s : State) (h : Hidden) : State :=
  { s with keys := h.keys, dirty := h.dirty, accCpu := h.accCpu, accTimer := h.accTimer, rate := h.rate, phase := h.phase,
           out := h.out }

def State.hidden (s : State) : Hidden :=
  { keys := s.keys, dirty := s.dirty, accCpu := s.accCpu, accTimer := s.accTimer, rate := s.rate, phase := s.phase, out := s.out }

/-- What an instruction makes of them, if it does not fault: DRW sets `dirty`, SYS and UNKNOWN emit their `diag`. -/
def Hidden.after (h : Hidden) : Instr → Hidden
  | .drw _ _ _ => { h with dirty := true }
  | .sys nnn => { h with out := .diag (encode (.sys nnn)) :: h.out }
  | .unknown w => { h with out := .diag w :: h.out }
  | _ => h

/-- No instruction writes the other five. -/
theorem Hidden.after_eq (h : Hidden) (i : Instr) : ∃ d o, h.after i = { h with dirty := d, out := o } := by
  cases i <;> exact ⟨_, _, rfl⟩

theorem Hidden.after_setKeys (h : Hidden) (i : Instr) (k : BitVec 16) :
    ({ h with keys := k } : Hidden).after i = { h.after i with keys := k } := by
  cases i <;> rfl

@[simp] theorem State.hide_hidden (s : State) : s.hide s.hidden = s := rfl

/-! ### The instructions that branch on what they read -/

theorem exec_ret_hide (s : State) (h : Hidden) : exec .ret (s.hide h) = mapNext (·.hide h) (exec .ret s) := by
  cases hs : s.sp with
  | none => rw [exec_ret_empty hs, exec_ret_empty (s := s.hide h) hs]; rfl
  | some k => rw [exec_ret_live hs, exec_ret_live (s := s.hide h) hs]; rfl

theorem exec_call_hide (a : Addr12) (s : State) (h : Hidden) :
    exec (.call a) (s.hide h) = mapNext (·.hide h) (exec (.call a) s) := by
  by_cases hs : s.spInt = 15
  · rw [exec_call_full hs, exec_call_full (s := s.hide h) hs]; rfl
  · obtain ⟨k, hk, he⟩ := exec_call_room hs a
    obtain ⟨j, hj, he'⟩ := exec_call_room (s := s.hide h) hs a
    obtain rfl : j = k := Fin.ext (by exact_mod_cast hj.trans hk.symm)
    rw [he, he']; rfl

theorem exec_drw_hide (x y : Reg) (n : Count) (s : State) (h : Hidden) :
    exec (.drw x y n) (s.hide h) = mapNext (·.hide (h.after (.drw x y n))) (exec (.drw x y n) s) := by
  by_cases hs : 0 < n.val ∧ 4096 ≤ s.I.toNat + n.val - 1
  · rw [exec_drw_bad hs.1 hs.2, exec_drw_bad (s := s.hide h) hs.1 hs.2]; rfl
  · have hfit : n.val = 0 ∨ s.I.toNat + n.val ≤ 4096 := by omega
    rw [exec_drw_fits hfit, exec_drw_fits (s := s.hide h) hfit]; rfl

theorem exec_ldB_hide (x : Reg) (s : State) (h : Hidden) :
    exec (.ldB x) (s.hide h) = mapNext (·.hide h) (exec (.ldB x) s) := by
  rcases Nat.lt_or_ge (s.I.toNat + 2) 4096 with hs | hs
  · rw [exec_ldB_fits hs, exec_ldB_fits (s := s.hide h) hs]; rfl
  · rw [exec_ldB_bad hs, exec_ldB_bad (s := s.hide h) hs]; rfl

theorem exec_ldMemVx_hide (x : Reg) (s : State) (h : Hidden) :
    exec (.ldMemVx x) (s.hide h) = mapNext (·.hide h) (exec (.ldMemVx x) s) := by
  rcases Nat.lt_or_ge (s.I.toNat + x.val) 4096 with hs | hs
  · rw [exec_ldMemVx_fits hs, exec_ldMemVx_fits (s := s.hide h) hs]; rfl
  · rw [exec_ldMemVx_bad hs, exec_ldMemVx_bad (s := s.hide h) hs]; rfl

theorem exec_ldVxMem_hide (x : Reg) (s : State) (h : Hidden) :
    exec (.ldVxMem x) (s.hide h) = mapNext (·.hide h) (exec (.ldVxMem x) s) := by
  rcases Nat.lt_or_ge (s.I.toNat + x.val) 4096 with hs | hs
  · rw [exec_ldVxMem_fits hs, exec_ldVxMem_fits (s := s.hide h) hs]; rfl
  · rw [exec_ldVxMem_bad hs, exec_ldVxMem_bad (s := s.hide h) hs]; rfl

/-- A skip commutes with the replacement. -/
theorem State.skipIf_hide (s : State) (h : Hidden) (c : Bool) : (s.hide h).skipIf c = (s.skipIf c).hide h := by
  cases c <;> rfl

theorem State.keyPressed_hide {s : State} {h : Hidden} (hk : h.keys = s.keys) : (s.hide h).keyPressed = s.keyPressed :=
  funext fun k => congrArg (BitVec.getLsbD · k) hk

/-- The three instructions that read the snapshot do not see a replacement that keeps it. -/
theorem exec_skp_hide (x : Reg) (s : State) {h : Hidden} (hk : h.keys = s.keys) :
    exec (.skp x) (s.hide h) = mapNext (·.hide h) (exec (.skp x) s) ∧
    exec (.sknp x) (s.hide h) = mapNext (·.hide h) (exec (.sknp x) s) := by
  have hreg : (s.hide h).reg x = s.reg x := rfl
  rcases Nat.lt_or_ge (s.reg x).toNat 16 with hs | hs
  · rw [exec_skp_valid hs, exec_sknp_valid hs, exec_skp_valid (s := s.hide h) hs, exec_sknp_valid (s := s.hide h) hs,
      hreg, State.keyPressed_hide hk, State.skipIf_hide, State.skipIf_hide]
    exact ⟨rfl, rfl⟩
  · rw [(exec_keySkip_invalid hs).1, (exec_keySkip_invalid hs).2, (exec_keySkip_invalid (s := s.hide h) hs).1,
      (exec_keySkip_invalid (s := s.hide h) hs).2]
    exact ⟨rfl, rfl⟩

theorem exec_ldVxK_hide (x : Reg) (s : State) {h : Hidden} (hk : h.keys = s.keys) :
    exec (.ldVxK x) (s.hide h) = mapNext (·.hide h) (exec (.ldVxK x) s) := by
  have hlow : (s.hide h).lowestKey = s.lowestKey := by
    rw [State.lowestKey, State.keyPressed_hide hk, State.lowestKey]
  cases hs : s.lowestKey with
  | none => rw [exec_ldVxK_none hs, exec_ldVxK_none (hlow.trans hs)]; rfl
  | some k => rw [exec_ldVxK_some hs, exec_ldVxK_some (hlow.trans hs)]; rfl

/-- Every instruction answers the same with the hidden fields replaced, the key snapshot too if it does not read it; what it makes of
them it makes of the replacement. -/
theorem exec_hide (i : Instr) (s : State) (h : Hidden) (hk : ReadsKeys i → h.keys = s.keys) :
    exec i (s.hide h) = mapNext (·.hide (h.after i)) (exec i s) := by
  cases i with
  | ret => exact exec_ret_hide s h
  | call a => exact exec_call_hide a s h
  | drw x y n => exact exec_drw_hide x y n s h
  | ldB x => exact exec_ldB_hide x s h
  | ldMemVx x => exact exec_ldMemVx_hide x s h
  | ldVxMem x => exact exec_ldVxMem_hide x s h
  | skp x => exact (exec_skp_hide x s (hk trivial)).1
  | sknp x => exact (exec_skp_hide x s (hk trivial)).2
  | ldVxK x => exact exec_ldVxK_hide x s (hk trivial)
  | seImm | sneImm | seReg | sneReg => exact congrArg _ (s.skipIf_hide h _)
  | _ => rfl

/-- The hidden fields of a next state: the replacement by their own values. -/
theorem hide_after_of_exec {i : Instr} {s t : State} (h : exec i s = .next t) : t = t.hide (s.hidden.after i) := by
  have hself := exec_hide i s s.hidden fun _ => rfl
  rw [State.hide_hidden, h] at hself
  exact Host.Outcome.next.inj hself

/-! ### The statements -/

/-- Settles O44: the other state is the first with its hidden fields replaced, but for the key snapshot. -/
theorem outputsAndTimeAreInvisible : Obligations.OutputsAndTimeAreInvisible := by
  intro i s s' hs'
  have hkeys : s'.keys = s.keys := by rw [hs']
  have hhide : s.hide s'.hidden = s' := by rw [hs']; rfl
  have he := exec_hide i s s'.hidden fun _ => hkeys
  rw [hhide] at he
  refine ⟨fun t ht => ?_, fun f hf => by rw [he, hf]; rfl⟩
  rw [ht] at he
  refine ⟨t.hide (s'.hidden.after i), he, ?_⟩
  have htkeys : t.keys = s.keys := by
    obtain ⟨d, o, ha⟩ := s.hidden.after_eq i
    rw [hide_after_of_exec ht, ha]; rfl
  obtain ⟨d, o, ha⟩ := s'.hidden.after_eq i
  rw [ha, State.hide, State.hidden, hkeys, ← htkeys]

/-- Settles O45: the replacement of the key snapshot alone. -/
theorem onlyKeyInstructionsReadKeys : Obligations.OnlyKeyInstructionsReadKeys := by
  intro i s k hi
  refine (exec_hide i s { s.hidden with keys := k } fun h => absurd h hi).trans ?_
  rw [Hidden.after_setKeys]
  cases ht : exec i s with
  | next t =>
    have hkeep : t.hide { s.hidden.after i with keys := k } = { t.hide (s.hidden.after i) with keys := k } := rfl
    rw [← hide_after_of_exec ht] at hkeep
    exact congrArg _ hkeep
  | fault f => rfl
  | refused r => rfl

end Sys2Proof.Machine
end

section
/-! PROOFS. One step (spec/60_exceptions.md sections 5 and 6): what a CPU tick begins with, the ways a step answers a next state, and
the statements on a single step. -/

namespace Sys2Proof.Machine

open Statement

/-! ### What the ports answer -/

theorem nextPoll_of_answers {s : State} {c : Bool} (h : PollAnswers s c) : s.nextPoll = c := by
  cases hi : s.inputs.iterations with
  | nil => rw [State.nextPoll_nil _ hi, h.2 hi]
  | cons it rest => rw [State.nextPoll_cons _ hi, h.1 it rest hi]

theorem nextElapsed_of_answers {s : State} {dt : Elapsed} (h : ElapsedAnswers s dt) : s.nextElapsed = dt := by
  cases hi : s.inputs.iterations with
  | nil => rw [State.nextElapsed_nil _ hi, h.2 hi]
  | cons it rest => rw [State.nextElapsed_cons _ hi, h.1 it rest hi]

theorem nextKeys_of_answers {s : State} {k : BitVec 16} (h : SampleAnswers s k) : s.nextKeys = k := by
  cases hi : s.inputs.keySamples with
  | nil => rw [State.nextKeys_nil _ hi, h.2 hi]
  | cons k' rest => rw [State.nextKeys_cons _ hi, h.1 k' rest hi]

/-! ### What a CPU tick begins with -/

section
variable {s : State} (h : s.phase ≠ .ended)
include h

theorem State.tickStart_V : s.tickStart.V = s.V := by rw [State.tickStart_eq h]
theorem State.tickStart_I : s.tickStart.I = s.I := by rw [State.tickStart_eq h]
theorem State.tickStart_pc : s.tickStart.pc = s.pc := by rw [State.tickStart_eq h]
theorem State.tickStart_stack : s.tickStart.stack = s.stack := by rw [State.tickStart_eq h]
theorem State.tickStart_sp : s.tickStart.sp = s.sp := by rw [State.tickStart_eq h]
theorem State.tickStart_keys : s.tickStart.keys = s.keys := by rw [State.tickStart_eq h]
theorem State.tickStart_mem : s.tickStart.mem = s.mem := by rw [State.tickStart_eq h]
theorem State.tickStart_pix : s.tickStart.pix = s.pix := by rw [State.tickStart_eq h]
theorem State.tickStart_dirty : s.tickStart.dirty = s.dirty := by rw [State.tickStart_eq h]
theorem State.tickStart_fault : s.tickStart.fault = s.fault := by rw [State.tickStart_eq h]
theorem State.tickStart_rate : s.tickStart.rate = s.rate := by rw [State.tickStart_eq h]
theorem State.tickStart_inputs : s.tickStart.inputs = afterPoll s.inputs := by rw [State.tickStart_eq h]; rfl
theorem State.tickStart_accCpu : s.tickStart.accCpu = s.accCpu + s.nextElapsed.seconds := by rw [State.tickStart_eq h]

theorem State.tickStart_fetchable : s.tickStart.fetchable = s.fetchable := by
  rw [State.fetchable, State.tickStart_pc h, State.fetchable]

theorem State.tickStart_fetchWord : s.tickStart.fetchWord = s.fetchWord := by
  rw [State.fetchWord, State.tickStart_pc h, State.tickStart_mem h, State.fetchWord]

theorem State.tickStart_nextKeys : s.tickStart.nextKeys = s.nextKeys := by
  rw [State.nextKeys, State.tickStart_inputs h]
  rfl

/-- A run that is entered: `start` emitted if it had not begun, the iteration's answers taken (R195, R197). -/
theorem State.begun_takeIteration : s.begun.takeIteration =
    { s with phase := .running, out := if s.phase = .running then s.out else .start :: s.out, inputs := afterPoll s.inputs } := by
  rw [State.begun_eq h]
  rfl

/-- The accumulators the timer's half tests. -/
theorem State.accumulated_accTimer :
    (s.begun.takeIteration.accumulate s.nextElapsed.seconds).accTimer = s.accTimer + s.nextElapsed.seconds := by
  rw [State.begun_takeIteration h]
  exact timeAdd_eq _ _

/-- The timer tick of an iteration, if one is due (R195). -/
theorem State.tickStart_of_due (hdue : s.TimerDue) : s.tickStart =
    { s.begun.takeIteration.timerTick with
      accCpu := s.accCpu + s.nextElapsed.seconds, accTimer := s.accTimer + s.nextElapsed.seconds - 1 / 60 } := by
  rcases State.timerPhase_cases (s.begun.takeIteration.accumulate s.nextElapsed.seconds) with ⟨-, e⟩ | ⟨hlt, -⟩
  · rw [State.tickStart, e, State.accumulated_accTimer h, timerPeriod_eq, State.timerTick_eq, State.timerTick_eq,
      State.begun_takeIteration h, State.accumulate, timeAdd_eq]
  · rw [State.accumulated_accTimer h, timerPeriod_eq] at hlt
    exact absurd hdue (not_le.2 hlt)

theorem State.tickStart_of_not_due (hdue : ¬ s.TimerDue) : s.tickStart =
    { s.begun.takeIteration with
      accCpu := s.accCpu + s.nextElapsed.seconds, accTimer := s.accTimer + s.nextElapsed.seconds } := by
  rcases State.timerPhase_cases (s.begun.takeIteration.accumulate s.nextElapsed.seconds) with ⟨hle, -⟩ | ⟨-, e⟩
  · rw [State.accumulated_accTimer h, timerPeriod_eq] at hle
    exact absurd hle hdue
  · rw [State.tickStart, e, State.begun_takeIteration h, State.accumulate, timeAdd_eq, timeAdd_eq]

end

/-! ### The CPU's half of an iteration -/

theorem State.finishTick_eq (s : State) : s.finishTick = { s.present with accCpu := s.accCpu - 1 / (s.rate : Rat) } := by
  rw [State.finishTick, timeSub_eq, cpuPeriod_eq]

theorem cpuPhase_idle {s : State} (h : s.accCpu < 1 / (s.rate : Rat)) : cpuPhase s = .next s := by
  rw [cpuPhase, timeReached_eq, cpuPeriod_eq, decide_eq_false (not_le.2 h), if_neg Bool.false_ne_true]

theorem cpuPhase_of_next {s t : State} (h : 1 / (s.rate : Rat) ≤ s.accCpu) (ht : cpuTick s = .next t) :
    cpuPhase s = .next t.finishTick := by
  rw [cpuPhase, timeReached_eq, cpuPeriod_eq, decide_eq_true h, if_pos rfl, ht]

theorem cpuPhase_of_fault {s : State} {f : Fault} (h : 1 / (s.rate : Rat) ≤ s.accCpu) (hf : cpuTick s = .fault f) :
    cpuPhase s = .next (s.discardSample.takeFault f) := by
  rw [cpuPhase, timeReached_eq, cpuPeriod_eq, decide_eq_true h, if_pos rfl, hf]

theorem cpuTick_of_fetchable {s : State} (h : s.fetchable = true) :
    cpuTick s = exec (decode s.fetchWord) s.refreshKeys.advancePc := if_pos h

theorem cpuTick_of_not_fetchable {s : State} (h : s.fetchable = false) : cpuTick s = .fault (.fetchRange s.pc) := by
  rw [cpuTick, h, if_neg Bool.false_ne_true]

theorem State.discardSample_of_fetchable {s : State} (h : s.fetchable = true) : s.discardSample = s.takeSample := if_pos h

theorem State.discardSample_of_not_fetchable {s : State} (h : s.fetchable = false) : s.discardSample = s := by
  rw [State.discardSample, h, if_neg Bool.false_ne_true]

/-- The state `exec` is entered with in a CPU tick (R190). -/
theorem State.entered_eq (s : State) : s.refreshKeys.advancePc =
    { s with pc := s.pc + 2#16, keys := s.nextKeys, inputs := afterSample s.inputs } := rfl

/-! ### A step -/

/-- An iteration that fires a CPU tick is the CPU's half of it, from the state the tick begins with. -/
theorem step_of_ticks {s : State} (h : s.Ticks) :
    step s = cpuPhase s.tickStart ∧ 1 / (s.tickStart.rate : Rat) ≤ s.tickStart.accCpu := by
  obtain ⟨hrun, hpoll, hreach⟩ := h
  have hphase := hrun.2.2
  rw [step_of_canRun hrun, if_pos hpoll, State.tickStart_rate hphase, State.tickStart_accCpu hphase]
  exact ⟨rfl, hreach⟩

/-- The four ways a step answers a next state. -/
inductive StepTo (s t : State) : Prop
  | quit (hpoll : s.nextPoll = false) (ht : t = s.begun.takeIteration.endRun)
  | idle (hpoll : s.nextPoll = true) (hshort : s.accCpu + s.nextElapsed.seconds < 1 / (s.rate : Rat)) (ht : t = s.tickStart)
  | faulted (hticks : s.Ticks) (f : Fault) (hf : cpuTick s.tickStart = .fault f)
      (ht : t = s.tickStart.discardSample.takeFault f)
  | ran (hticks : s.Ticks) (u : State) (hu : cpuTick s.tickStart = .next u) (ht : t = u.finishTick)

theorem stepTo_of_step {s t : State} (h : step s = .next t) : s.CanRun ∧ StepTo s t := by
  obtain ⟨hrun, ⟨hpoll, ht⟩ | ⟨hpoll, hphase⟩⟩ := step_next h
  · exact ⟨hrun, .quit hpoll ht⟩
  · refine ⟨hrun, ?_⟩
    have hne := hrun.2.2
    have hreach := cpuPhase_next hphase
    rw [cpuPeriod_eq, State.tickStart_rate hne, State.tickStart_accCpu hne] at hreach
    rcases hreach with ⟨hshort, ht⟩ | ⟨hle, f, hf, ht⟩ | ⟨hle, u, hu, ht⟩
    · exact .idle hpoll hshort ht
    · exact .faulted ⟨hrun, hpoll, hle⟩ f hf ht
    · exact .ran ⟨hrun, hpoll, hle⟩ u hu ht

/-! ### The statements -/

/-- Settles O46: `refreshKeys` and `advancePc` make the state `exec` is entered with. -/
theorem stepRunsDecodedInstruction : Obligations.StepRunsDecodedInstruction := by
  intro s i k hticks hfetch hi _ hk
  have hne := hticks.1.2.2
  obtain ⟨hstep, hreach⟩ := step_of_ticks hticks
  have hfetchb : s.tickStart.fetchable = true := (State.tickStart_fetchable hne).trans hfetch
  have htick := cpuTick_of_fetchable hfetchb
  rw [State.tickStart_fetchWord hne, hi, State.entered_eq, State.tickStart_pc hne, State.tickStart_nextKeys hne,
    nextKeys_of_answers hk] at htick
  refine ⟨fun t ht => ?_, fun f hf => ?_⟩
  · rw [hstep, cpuPhase_of_next hreach (htick.trans ht), State.finishTick_eq]
  · rw [hstep, cpuPhase_of_fault hreach (htick.trans hf), State.discardSample_of_fetchable hfetchb]
    rfl

/-- Settles O47: by whether a timer tick is due. -/
theorem timersTickBeforeTheInstruction : Obligations.TimersTickBeforeTheInstruction := by
  intro s c dt hne hpoll helapsed d b
  have hb : s.begun.takeIteration = b := State.begun_takeIteration hne
  have hd : s.nextElapsed.seconds = d := by rw [nextElapsed_of_answers helapsed, Elapsed.seconds_eq]
  refine ⟨nextPoll_of_answers hpoll, hd, fun hdue => ?_, fun hdue => ?_, fun hfault hrate hc hshort => ?_⟩
  · rw [State.tickStart_of_due hne (by rwa [State.TimerDue, hd]), hb, hd]
  · rw [State.tickStart_of_not_due hne (by rwa [State.TimerDue, hd, not_le]), hb, hd]
  · rw [step_of_canRun ⟨hfault, hrate, hne⟩, nextPoll_of_answers hpoll, if_pos hc, cpuPhase_idle]
    rwa [State.tickStart_accCpu hne, State.tickStart_rate hne, hd]

/-- Settles O48: no sample is taken where the fetch is out of range. -/
theorem fetchPastMemoryFaults : Obligations.FetchPastMemoryFaults := by
  intro s hticks hpc
  have hne := hticks.1.2.2
  obtain ⟨hstep, hreach⟩ := step_of_ticks hticks
  have hfetch : s.tickStart.fetchable = false :=
    (State.tickStart_fetchable hne).trans (s.fetchable_eq_false_iff.2 hpc)
  rw [hstep, cpuPhase_of_fault hreach (cpuTick_of_not_fetchable hfetch), State.discardSample_of_not_fetchable hfetch,
    State.tickStart_pc hne]
  rfl

/-- Settles O50: by the guards of `step` and of `tryReset`. -/
theorem noStepIsEnabled : Obligations.NoStepIsEnabled := by
  have hfaulted (s : State) (f : Fault) (h : s.fault = some f) : step s = .fault f := by rw [step, h]
  refine ⟨fun s f h => ⟨hfaulted s f h, fun n => ?_⟩, fun s h hr => ?_, fun s h hr hp => ?_, fun s h hp => ?_, fun s h => ?_⟩
  · simp only [Host.Core.run, show Sys2Proof.core.step s = .fault f from hfaulted s f h]
  · simp only [step, h, hr, if_true]
  · simp only [step, h, hp, if_neg hr.ne']
  · simp only [State.tryReset, State.inRun, h, hp]
    rfl
  · have hout : s.inRun = false := by
      rw [State.inRun, Bool.and_eq_false_iff, beq_eq_false_iff_ne, beq_eq_false_iff_ne]
      exact h.symm
    rw [State.tryReset, hout]
    rfl

/-- Settles O51: the run is entered, its answers taken, and ended. -/
theorem quitEndsTheRun : Obligations.QuitEndsTheRun := by
  intro s hrun hpoll
  refine ⟨s.begun.takeIteration.endRun, ?_, ?_, ?_, ?_⟩
  · rw [step_of_canRun hrun, nextPoll_of_answers hpoll, if_neg Bool.false_ne_true]
  · rw [State.begun_takeIteration hrun.2.2]; rfl
  · rw [State.begun_takeIteration hrun.2.2]; rfl
  · obtain ⟨hfault, hrate, hne⟩ := hrun
    rw [State.begun_takeIteration hne]
    exact noStepIsEnabled.2.2.1 _ hfault hrate rfl

end Sys2Proof.Machine
end

section
/-! PROOFS. What a CPU tick and a step keep: the frame of an instruction that ran, the statements on a step's effect, and the
invariant. -/

namespace Sys2Proof.Machine

open Statement

/-! ### The frame of a CPU tick -/

theorem count_beep_cons_diag (op : Word) (out : List Output) : (.diag op :: out).count Output.beep = out.count .beep :=
  List.count_cons_of_ne (by nofun)

theorem count_beep_cons_render (g : Grid) (out : List Output) : (.render g :: out).count Output.beep = out.count .beep :=
  List.count_cons_of_ne (by nofun)

/-- No instruction emits a beep (45_keys_timers.md R165). -/
theorem Effect.beeps {i : Instr} {s t : State} (h : Effect s i t) : t.out.count .beep = s.out.count .beep := by
  cases h with
  | diag _ => exact count_beep_cons_diag _ _
  | skip _ => rw [State.skipIf_eq, State.setPc_out]
  | _ => rfl

/-- No instruction takes an iteration's answers or a key sample from the ports. -/
theorem Effect.inputs {i : Instr} {s t : State} (h : Effect s i t) :
    t.inputs.iterations = s.inputs.iterations ∧ t.inputs.iterationsDone = s.inputs.iterationsDone ∧
      t.inputs.samplesDone = s.inputs.samplesDone := by
  cases h with
  | skip _ => rw [State.skipIf_eq]; exact ⟨rfl, rfl, rfl⟩
  | _ => exact ⟨rfl, rfl, rfl⟩

/-- What a CPU tick that did not fault keeps, and the one sample it takes. -/
structure TickFrame (b u : State) : Prop where
  accCpu : u.accCpu = b.accCpu
  accTimer : u.accTimer = b.accTimer
  fault : u.fault = b.fault
  rate : u.rate = b.rate
  beeps : u.out.count .beep = b.out.count .beep
  iterations : u.inputs.iterations = b.inputs.iterations
  iterationsDone : u.inputs.iterationsDone = b.inputs.iterationsDone
  samplesDone : u.inputs.samplesDone = b.inputs.samplesDone + 1

/-- A CPU tick that does not fault is an instruction run on the entered state. -/
theorem exec_of_cpuTick {b u : State} (h : cpuTick b = .next u) :
    b.fetchable = true ∧ exec (decode b.fetchWord) b.refreshKeys.advancePc = .next u := by
  rcases cpuTick_cases b with ⟨-, e⟩ | ⟨hf, e⟩
  · rw [e] at h; cases h
  · exact ⟨hf, e ▸ h⟩

theorem tickFrame_of_cpuTick {b u : State} (h : cpuTick b = .next u) : TickFrame b u := by
  obtain ⟨-, he⟩ := exec_of_cpuTick h
  have heff := effect_of_exec he
  obtain ⟨hit, hdone, hsamples⟩ := heff.inputs
  obtain ⟨-, -, -, -, -, -, -, -, -, -, -, -, hcpu, htimer, hfault, hrate, -⟩ := eachRegisterHasItsWriters _ _ _ he
  exact ⟨hcpu, htimer, hfault, hrate, heff.beeps, hit, hdone, hsamples⟩

/-- Code 1 is the fetch's own (R177). -/
theorem ne_one_of_faultCodeOf {i : Instr} {k : Nat} (h : FaultCodeOf i k) : k ≠ 1 := by
  rintro rfl
  cases i <;> cases h

/-- A fault of a tick whose fetch is in range is no fetch fault. -/
theorem code_ne_one_of_cpuTick {b : State} {f : Fault} (hb : b.fetchable = true) (h : cpuTick b = .fault f) : f.code ≠ 1 := by
  rw [cpuTick_of_fetchable hb] at h
  exact ne_one_of_faultCodeOf (namesFault_of_exec h).1

@[simp] theorem State.drawn_dirty (s : State) (d : Drawing) : (s.drawn d).dirty = true := rfl
@[simp] theorem State.drawn_out (s : State) (d : Drawing) : (s.drawn d).out = s.out := rfl

/-- A DRW that does not fault leaves its draw. -/
theorem drawn_of_exec {x y : Reg} {n : Count} {s t : State} (h : exec (.drw x y n) s = .next t) :
    t = s.drawn (s.drawing x y n) := by
  by_cases hbad : FaultsOn (.drw x y n) s
  · rw [exec_drw_bad hbad.1 hbad.2] at h
    cases h
  · simp only [FaultsOn] at hbad
    rw [exec_drw_fits (by omega)] at h
    exact (Host.Outcome.next.inj h).symm

/-! ### The frame of the end of a tick -/

theorem State.present_beeps (s : State) : s.present.out.count .beep = s.out.count .beep := by
  rw [State.present_eq]
  cases s.dirty
  · rfl
  · exact count_beep_cons_render _ _

theorem State.finishTick_accCpu (s : State) : s.finishTick.accCpu = s.accCpu - 1 / (s.rate : Rat) := by
  rw [State.finishTick_eq]

section
variable (s : State)

theorem State.finishTick_eq_with : s.finishTick =
    { s with dirty := false, out := s.present.out, accCpu := s.finishTick.accCpu } := by
  rw [State.finishTick_eq, State.present_eq]

theorem State.finishTick_accTimer : s.finishTick.accTimer = s.accTimer := by rw [State.finishTick_eq_with]
theorem State.finishTick_fault : s.finishTick.fault = s.fault := by rw [State.finishTick_eq_with]
theorem State.finishTick_rate : s.finishTick.rate = s.rate := by rw [State.finishTick_eq_with]
theorem State.finishTick_inputs : s.finishTick.inputs = s.inputs := by rw [State.finishTick_eq_with]
theorem State.finishTick_beeps : s.finishTick.out.count .beep = s.out.count .beep := by
  rw [State.finishTick_eq_with]; exact s.present_beeps

end

theorem State.endRun_eq_with {s : State} (h : s.phase ≠ .ended) :
    s.begun.takeIteration.endRun = { s with
      phase := .ended, inputs := afterPoll s.inputs
      out := .stop :: (if s.phase = .running then s.out else .start :: s.out) } := by
  rw [State.begun_takeIteration h]; rfl

/-! ### The statements -/

/-- Settles O49: only a tick that faulted leaves a fault, and it takes the fault in the state it began with. -/
theorem faultingStepChangesNoProgramState : Obligations.FaultingStepChangesNoProgramState := by
  intro s t f h hf
  obtain ⟨⟨hfault, hrate, hne⟩, hto⟩ := stepTo_of_step h
  cases hto with
  | quit _ ht =>
    rw [ht, State.endRun_eq_with hne, hfault] at hf
    cases hf
  | idle _ _ ht =>
    rw [ht, State.tickStart_fault hne, hfault] at hf
    cases hf
  | ran _ u hu ht =>
    rw [ht, State.finishTick_fault, (tickFrame_of_cpuTick hu).fault, State.tickStart_fault hne, hfault] at hf
    cases hf
  | faulted _ g _ ht =>
    rw [ht, State.discardSample_eq, State.tickStart_eq hne]
    exact ⟨rfl, rfl, rfl, rfl, rfl, rfl, rfl, rfl, rfl⟩

/-- Settles O52: DRW sets `dirty`, so the `present` of the same tick sends its grid. -/
theorem drawIsPresentedAtOnce : Obligations.DrawIsPresentedAtOnce := by
  intro s t x y n hticks hfetch hdecode h hf
  have hne := hticks.1.2.2
  obtain ⟨-, hto⟩ := stepTo_of_step h
  cases hto with
  | quit hpoll _ => rw [hticks.2.1] at hpoll; cases hpoll
  | idle _ hshort _ => exact absurd hticks.2.2 (not_le.2 hshort)
  | faulted _ g _ ht => rw [ht] at hf; cases hf
  | ran _ u hu ht =>
    obtain ⟨-, he⟩ := exec_of_cpuTick hu
    rw [State.tickStart_fetchWord hne, hdecode] at he
    rw [ht, State.finishTick_eq, State.present_eq, drawn_of_exec he, State.drawn_dirty, State.drawn_out, if_pos rfl,
      State.advancePc_out, State.refreshKeys_out]
    exact ⟨rfl, rfl⟩

/-! ### The accumulators -/

/-- The timer accumulator loses one period if a timer tick is due, and nothing otherwise (R196). -/
theorem State.tickStart_accTimer {s : State} (h : s.phase ≠ .ended) :
    (s.TimerDue ∧ s.tickStart.accTimer = s.accTimer + s.nextElapsed.seconds - 1 / 60) ∨
    (¬ s.TimerDue ∧ s.tickStart.accTimer = s.accTimer + s.nextElapsed.seconds) := by
  by_cases hdue : s.TimerDue
  · exact .inl ⟨hdue, by rw [State.tickStart_of_due h hdue]⟩
  · exact .inr ⟨hdue, by rw [State.tickStart_of_not_due h hdue]⟩

/-- The CPU accumulator after a tick that ran. -/
theorem State.finishTick_accCpu_of_cpuTick {s u : State} (h : s.phase ≠ .ended) (hu : cpuTick s.tickStart = .next u) :
    u.finishTick.accCpu = s.accCpu + s.nextElapsed.seconds - 1 / (s.rate : Rat) := by
  have hframe := tickFrame_of_cpuTick hu
  rw [State.finishTick_accCpu, hframe.accCpu, hframe.rate, State.tickStart_accCpu h, State.tickStart_rate h]

theorem State.finishTick_accTimer_of_cpuTick {s u : State} (hu : cpuTick s.tickStart = .next u) :
    u.finishTick.accTimer = s.tickStart.accTimer := by
  rw [State.finishTick_accTimer, (tickFrame_of_cpuTick hu).accTimer]

/-- Settles O53: an iteration without a CPU tick is its `tickStart`; one with a tick loses one period in `finishTick`. -/
theorem noCatchUp : Obligations.NoCatchUp := by
  intro s t h hf hpoll
  obtain ⟨⟨-, -, hne⟩, hto⟩ := stepTo_of_step h
  cases hto with
  | quit hq _ => rw [hpoll] at hq; cases hq
  | faulted _ g _ ht => rw [ht] at hf; cases hf
  | idle _ hshort ht =>
    subst ht
    refine ⟨.inr ⟨hshort, State.tickStart_accCpu hne, ?_⟩, State.tickStart_accTimer hne⟩
    rw [State.tickStart_inputs hne]
    rfl
  | ran hticks u hu ht =>
    subst ht
    rw [State.finishTick_accTimer_of_cpuTick hu]
    refine ⟨.inl ⟨hticks.2.2, State.finishTick_accCpu_of_cpuTick hne hu, ?_⟩, State.tickStart_accTimer hne⟩
    rw [State.finishTick_inputs, (tickFrame_of_cpuTick hu).samplesDone, State.tickStart_inputs hne]
    rfl

/-! ### The invariant -/

/-- The bounds the invariant sets to memory, `pc` and the call stack, which an instruction can write. -/
structure WithinBounds (t : State) : Prop where
  memory : t.mem.Wf
  pcBound : t.pc.toNat ≤ 0x10FE
  returnBound : ∀ k : Fin 16, (t.stack[k.val]).toNat ≤ 0x1000

/-- Every effect keeps them, entered with `pc` 2 past the address of a fetch in range (10_state.md R23). -/
theorem Effect.withinBounds {i : Instr} {s t : State} (h : Effect s i t) (hs : WithinBounds s) (hlow : 2 ≤ s.pc.toNat)
    (hhigh : s.pc.toNat ≤ 0x1000) : WithinBounds t := by
  obtain ⟨hmem, hpc, hstack⟩ := hs
  cases h with
  | store _ hfit => exact ⟨Memory.wf_writeSlice hmem hfit, hpc, hstack⟩
  | @jump a =>
    have ha := a.isLt
    exact ⟨hmem, by rw [State.setPc_pc, toNat_wordOfAddr]; omega, hstack⟩
  | @jumpV0 a =>
    have ha := a.isLt
    have hr := (s.reg 0).isLt
    exact ⟨hmem, by rw [State.setPc_pc, BitVec.toNat_add, State.toNat_regWord, toNat_wordOfAddr]; omega, hstack⟩
  | @call a k =>
    have ha := a.isLt
    refine ⟨hmem, by rw [State.called, toNat_wordOfAddr]; omega, fun j => ?_⟩
    rw [State.called, Vector.getElem_set]
    split
    · exact hhigh
    · exact hstack j
  | @ret k =>
    have hk := hstack k
    exact ⟨hmem, hk.trans (by decide), hstack⟩
  | @skip _ c _ =>
    rw [State.skipIf_eq]
    refine ⟨hmem, ?_, hstack⟩
    cases c
    · exact hpc
    · rw [State.setPc_pc, if_pos rfl, BitVec.toNat_add, BitVec.toNat_ofNat]; omega
  | rewind =>
    refine ⟨hmem, ?_, hstack⟩
    rw [State.setPc_pc, BitVec.toNat_sub, BitVec.toNat_ofNat]
    omega
  | _ => exact ⟨hmem, hpc, hstack⟩

/-- A CPU tick that runs: the fetch leaves `pc` between 2 and 0x1000. -/
theorem withinBounds_of_cpuTick {b u : State} (h : cpuTick b = .next u) (hb : WithinBounds b) : WithinBounds u := by
  obtain ⟨hfetch, he⟩ := exec_of_cpuTick h
  have hpc : (b.pc + 2#16).toNat = b.pc.toNat + 2 := by
    have hlt := b.fetchable_iff.1 hfetch
    rw [BitVec.toNat_add, BitVec.toNat_ofNat]
    omega
  have hlt := b.fetchable_iff.1 hfetch
  refine (effect_of_exec he).withinBounds ⟨hb.memory, ?_, hb.returnBound⟩ ?_ ?_
  all_goals rw [State.advancePc_pc, State.refreshKeys_pc, hpc]; omega

theorem State.Inv.withinBounds_tickStart {s : State} (h : s.Inv) (hne : s.phase ≠ .ended) : WithinBounds s.tickStart := by
  rw [State.tickStart_eq hne]
  exact ⟨h.memory, h.pcBound, h.returnBound⟩

theorem State.Inv.accTimer_tickStart_nonneg {s : State} (h : s.Inv) (hne : s.phase ≠ .ended) : 0 ≤ s.tickStart.accTimer := by
  have hacc := h.timerNonneg
  have hdt := elapsed_nonneg s.nextElapsed
  rcases State.tickStart_accTimer hne with ⟨hdue, e⟩ | ⟨-, e⟩ <;> rw [e]
  · exact sub_nonneg.2 hdue
  · exact add_nonneg hacc hdt

/-- The state a CPU tick begins with meets the invariant. -/
theorem State.Inv.tickStart {s : State} (h : s.Inv) (hne : s.phase ≠ .ended) : s.tickStart.Inv := by
  obtain ⟨hmem, hpc, hstack⟩ := h.withinBounds_tickStart hne
  refine ⟨hmem, hpc, hstack, (State.tickStart_dirty hne).trans h.presented, ?_, h.accTimer_tickStart_nonneg hne⟩
  rw [State.tickStart_accCpu hne]
  exact add_nonneg h.cpuNonneg (elapsed_nonneg _)

/-- Settles O55: by the four ways a step answers a next state; in the one that runs an instruction, `withinBounds_of_cpuTick` gives
memory, `pc` and stack, `present` the clean display, and the test of the period the sign of the CPU accumulator. -/
theorem stepKeepsInvariant : Obligations.StepKeepsInvariant := by
  intro s t hs h
  obtain ⟨⟨-, -, hne⟩, hto⟩ := stepTo_of_step h
  have hstart := hs.tickStart hne
  cases hto with
  | quit _ ht =>
    rw [ht, State.endRun_eq_with hne]
    obtain ⟨hmem, hpc, hstack, hclean, hcpu, htimer⟩ := hs
    exact ⟨hmem, hpc, hstack, hclean, hcpu, htimer⟩
  | idle _ _ ht => exact ht ▸ hstart
  | faulted _ f _ ht =>
    rw [ht, State.discardSample_eq]
    obtain ⟨hmem, hpc, hstack, hclean, hcpu, htimer⟩ := hstart
    exact ⟨hmem, hpc, hstack, hclean, hcpu, htimer⟩
  | ran hticks u hu ht =>
    obtain ⟨hmem, hpc, hstack⟩ := withinBounds_of_cpuTick hu (hs.withinBounds_tickStart hne)
    have hcpu := State.finishTick_accCpu_of_cpuTick hne hu
    have htimer := State.finishTick_accTimer_of_cpuTick hu
    rw [State.finishTick_eq_with] at hcpu htimer ht
    subst ht
    exact ⟨hmem, hpc, hstack, rfl, hcpu.symm ▸ sub_nonneg.2 hticks.2.2, htimer.symm ▸ hstart.timerNonneg⟩

/-- Settles O56, by evaluation. -/
theorem resetMeetsInvariant : Obligations.ResetMeetsInvariant :=
  ⟨by decide, by decide, by decide, rfl, le_rfl, le_rfl⟩

end Sys2Proof.Machine
end

section
/-! PROOFS. The rate bounds (spec/60_exceptions.md section 6): what each step takes from an accumulator it counts as a tick, and the
account of a run is the sum of those of its steps. -/

namespace Sys2Proof.Machine

open Statement

/-! ### The elapsed time of a run -/

theorem State.elapsedAt_zero (s : State) : s.elapsedAt 0 = s.nextElapsed.seconds := by
  cases hi : s.inputs.iterations with
  | nil => rw [State.elapsedAt, State.nextElapsed_nil _ hi, hi]; rfl
  | cons it rest => rw [State.elapsedAt, State.nextElapsed_cons _ hi, hi]; rfl

/-- After one iteration's answers have been taken, those of the next one are next. -/
theorem State.elapsedAt_succ {s u : State} (hit : u.inputs.iterations = s.inputs.iterations.tail)
    (hdone : u.inputs.iterationsDone = s.inputs.iterationsDone + 1) (k : Nat) : s.elapsedAt (k + 1) = u.elapsedAt k := by
  rw [State.elapsedAt, State.elapsedAt, hit, hdone, List.getElem?_tail, Nat.add_assoc, Nat.add_comm 1 k]

theorem State.elapsedOver_zero (s : State) : s.elapsedOver 0 = 0 := rfl

theorem State.elapsedOver_succ {s u : State} (hit : u.inputs.iterations = s.inputs.iterations.tail)
    (hdone : u.inputs.iterationsDone = s.inputs.iterationsDone + 1) (n : Nat) :
    s.elapsedOver (n + 1) = s.nextElapsed.seconds + u.elapsedOver n := by
  have hrest : s.elapsedAt ∘ Nat.succ = u.elapsedAt := funext fun k => State.elapsedAt_succ hit hdone k
  rw [State.elapsedOver, List.range_succ_eq_map, List.map_cons, List.map_map, hrest, List.sum_cons, State.elapsedAt_zero,
    State.elapsedOver]

/-! ### Counting ticks -/

theorem cpuTicksBetween_of_unfaulted {s t : State} (h : t.fault = none) :
    cpuTicksBetween s t = t.inputs.samplesDone - s.inputs.samplesDone := by
  simp only [cpuTicksBetween, h, Nat.add_zero]

theorem cpuTicksBetween_trans {s u t : State} (hu : u.fault = none) (h1 : s.inputs.samplesDone ≤ u.inputs.samplesDone)
    (h2 : u.inputs.samplesDone ≤ t.inputs.samplesDone) :
    cpuTicksBetween s t = cpuTicksBetween s u + cpuTicksBetween u t := by
  rw [cpuTicksBetween_of_unfaulted hu, cpuTicksBetween, cpuTicksBetween, ← Nat.add_assoc]
  congr 1
  omega

/-- A tick that faults is counted once: by its sample, or by its fetch fault. -/
theorem cpuTicksBetween_takeFault {s b : State} {f : Fault} (hb : b.inputs.samplesDone = s.inputs.samplesDone)
    (h : cpuTick b = .fault f) : cpuTicksBetween s (b.discardSample.takeFault f) = 1 := by
  cases hfetch : b.fetchable with
  | true =>
    have hcode := code_ne_one_of_cpuTick hfetch h
    rw [State.discardSample_of_fetchable hfetch, cpuTicksBetween, State.takeFault_fault, State.takeFault_inputs]
    have hdone : b.takeSample.inputs.samplesDone = s.inputs.samplesDone + 1 := congrArg (· + 1) hb
    cases f with
    | fetchRange pc => exact absurd rfl hcode
    | _ => simp only [hdone]; omega
  | false =>
    rw [cpuTick_of_not_fetchable hfetch] at h
    obtain rfl := Host.Outcome.fault.inj h
    simp only [State.discardSample_of_not_fetchable hfetch, cpuTicksBetween, State.takeFault_fault, State.takeFault_inputs, hb,
      Nat.sub_self]

/-! ### The account of a run -/

/-- What is left of the CPU accumulator; a tick that faulted has been counted and its period is still to be taken. -/
def State.cpuRest (s : State) : Rat := if s.fault = none then s.accCpu else 0

theorem State.cpuRest_of_unfaulted {s : State} (h : s.fault = none) : s.cpuRest = s.accCpu := if_pos h

/-- The CPU ticks of `n` iterations from `s` to `t` in the time `e`: each has cost one period 1/RATE of the time accumulated, and the
rest is not negative if it was not before. -/
structure CpuAccount (n : Nat) (e : Rat) (s t : State) : Prop where
  rate : t.rate = s.rate
  samples : s.inputs.samplesDone ≤ t.inputs.samplesDone
  ticks : cpuTicksBetween s t ≤ n
  time : (cpuTicksBetween s t : Rat) + t.cpuRest * s.rate ≤ (s.accCpu + e) * s.rate
  rest_nonneg : 0 ≤ s.accCpu → 0 ≤ t.cpuRest

/-- The beeps of `n` iterations from `s` to `t` in the time `e`: each has cost one period 1/60 of the time accumulated. -/
structure TimerAccount (n : Nat) (e : Rat) (s t : State) : Prop where
  beeps : t.out.count .beep ≤ s.out.count .beep + n
  time : (t.out.count .beep : Rat) + t.accTimer * 60 ≤ s.out.count .beep + (s.accTimer + e) * 60
  rest_nonneg : 0 ≤ s.accTimer → 0 ≤ t.accTimer

theorem CpuAccount.of_no_tick {e : Rat} {s t : State} (n : Nat) (hrate : t.rate = s.rate)
    (hsamples : t.inputs.samplesDone = s.inputs.samplesDone) (hf : t.fault = none) (hrest : 0 ≤ s.accCpu → 0 ≤ t.accCpu)
    (hle : t.accCpu ≤ s.accCpu + e) : CpuAccount n e s t := by
  have hnone : cpuTicksBetween s t = 0 := by rw [cpuTicksBetween_of_unfaulted hf, hsamples, Nat.sub_self]
  have hrest' := State.cpuRest_of_unfaulted hf
  refine ⟨hrate, hsamples.ge, hnone ▸ Nat.zero_le n, ?_, hrest' ▸ hrest⟩
  rw [hnone, hrest', Nat.cast_zero, zero_add]
  exact mul_le_mul_of_nonneg_right hle (Nat.cast_nonneg _)

theorem CpuAccount.of_tick {e : Rat} {s t : State} (hpos : 0 < s.rate) (hrate : t.rate = s.rate)
    (hsamples : s.inputs.samplesDone ≤ t.inputs.samplesDone) (hone : cpuTicksBetween s t = 1) (hrest : 0 ≤ t.cpuRest)
    (hle : t.cpuRest ≤ s.accCpu + e - 1 / (s.rate : Rat)) : CpuAccount 1 e s t := by
  refine ⟨hrate, hsamples, hone.le, ?_, fun _ => hrest⟩
  have hpos' : (0 : Rat) < s.rate := Nat.cast_pos.2 hpos
  have hmul := mul_le_mul_of_nonneg_right hle hpos'.le
  rw [sub_mul, one_div_mul_cancel hpos'.ne'] at hmul
  rw [hone, Nat.cast_one]
  linarith

theorem TimerAccount.of_eq {n : Nat} {e : Rat} {s t u : State} (h : TimerAccount n e s t)
    (hbeeps : u.out.count .beep = t.out.count .beep) (hacc : u.accTimer = t.accTimer) : TimerAccount n e s u :=
  ⟨hbeeps ▸ h.beeps, by rw [hbeeps, hacc]; exact h.time, hacc ▸ h.rest_nonneg⟩

theorem TimerAccount.of_no_beep {e : Rat} {s t : State} (n : Nat) (hbeeps : t.out.count .beep = s.out.count .beep)
    (hrest : 0 ≤ s.accTimer → 0 ≤ t.accTimer) (hle : t.accTimer ≤ s.accTimer + e) : TimerAccount n e s t :=
  ⟨hbeeps ▸ Nat.le_add_right _ n, by rw [hbeeps]; linarith, hrest⟩

theorem CpuAccount.trans {m n : Nat} {d e : Rat} {s u t : State} (hu : u.fault = none) (h1 : CpuAccount m d s u)
    (h2 : CpuAccount n e u t) : CpuAccount (m + n) (d + e) s t := by
  have hticks := cpuTicksBetween_trans hu h1.samples h2.samples
  have hrest := State.cpuRest_of_unfaulted hu
  obtain ⟨hrate1, hsamples1, hticks1, htime1, hpos1⟩ := h1
  obtain ⟨hrate2, hsamples2, hticks2, htime2, hpos2⟩ := h2
  rw [hrest] at htime1 hpos1
  rw [hrate1] at htime2
  refine ⟨hrate2.trans hrate1, hsamples1.trans hsamples2, ?_, ?_, fun h => hpos2 (hpos1 h)⟩
  · exact hticks ▸ Nat.add_le_add hticks1 hticks2
  · rw [hticks, Nat.cast_add]
    linarith

theorem TimerAccount.trans {m n : Nat} {d e : Rat} {s u t : State} (h1 : TimerAccount m d s u) (h2 : TimerAccount n e u t) :
    TimerAccount (m + n) (d + e) s t := by
  obtain ⟨hbeeps1, htime1, hpos1⟩ := h1
  obtain ⟨hbeeps2, htime2, hpos2⟩ := h2
  exact ⟨by omega, by linarith, fun h => hpos2 (hpos1 h)⟩

/-! ### The account of a step -/

/-- Entering an iteration emits no beep. -/
theorem State.begun_takeIteration_beeps {s : State} (h : s.phase ≠ .ended) :
    s.begun.takeIteration.out.count .beep = s.out.count .beep := by
  rw [State.begun_takeIteration h]
  by_cases hp : s.phase = .running
  · rw [if_pos hp]
  · rw [if_neg hp]
    exact List.count_cons_of_ne (by nofun)

/-- A beep comes from a timer tick, which costs a period. -/
theorem timerAccount_tickStart {s : State} (h : s.phase ≠ .ended) :
    TimerAccount 1 s.nextElapsed.seconds s s.tickStart := by
  by_cases hdue : s.TimerDue
  · rw [State.tickStart_of_due h hdue]
    have hbeeps : s.begun.takeIteration.timerTick.out.count .beep ≤ s.out.count .beep + 1 := by
      rw [State.timerTick_out, List.count_append, List.count_replicate_self, State.begun_takeIteration_beeps h]
      omega
    have hbeeps' : (s.begun.takeIteration.timerTick.out.count .beep : Rat) ≤ s.out.count .beep + 1 := by
      exact_mod_cast hbeeps
    exact ⟨hbeeps, by dsimp only; linarith, fun _ => sub_nonneg.2 hdue⟩
  · rw [State.tickStart_of_not_due h hdue]
    exact .of_no_beep 1 (State.begun_takeIteration_beeps h) (fun hacc => add_nonneg hacc (elapsed_nonneg _)) le_rfl

theorem timerAccount_of_step {s t : State} (h : step s = .next t) : TimerAccount 1 s.nextElapsed.seconds s t := by
  obtain ⟨⟨-, -, hne⟩, hto⟩ := stepTo_of_step h
  have hstart := timerAccount_tickStart hne
  cases hto with
  | quit _ ht =>
    have hbeeps : t.out.count .beep = s.out.count .beep := by
      rw [ht]
      exact (List.count_cons_of_ne (by nofun)).trans (State.begun_takeIteration_beeps hne)
    have hacc : t.accTimer = s.accTimer := by rw [ht, State.endRun_eq_with hne]
    exact .of_no_beep 1 hbeeps (hacc ▸ id) (hacc ▸ le_add_of_nonneg_right (elapsed_nonneg _))
  | idle _ _ ht => exact ht ▸ hstart
  | faulted _ f _ ht =>
    rw [ht, State.discardSample_eq]
    exact hstart.of_eq rfl rfl
  | ran _ u hu ht =>
    subst ht
    exact hstart.of_eq (u.finishTick_beeps.trans (tickFrame_of_cpuTick hu).beeps) (State.finishTick_accTimer_of_cpuTick hu)

theorem cpuAccount_of_step {s t : State} (h : step s = .next t) : CpuAccount 1 s.nextElapsed.seconds s t := by
  obtain ⟨⟨hfault, hpos, hne⟩, hto⟩ := stepTo_of_step h
  have hdt := elapsed_nonneg s.nextElapsed
  have hrate := State.tickStart_rate hne
  have hsamples : s.tickStart.inputs.samplesDone = s.inputs.samplesDone := by rw [State.tickStart_inputs hne]; rfl
  have hunfaulted := (State.tickStart_fault hne).trans hfault
  cases hto with
  | quit _ ht =>
    rw [State.endRun_eq_with hne] at ht
    subst ht
    exact .of_no_tick 1 rfl rfl hfault id (le_add_of_nonneg_right hdt)
  | idle _ _ ht =>
    subst ht
    have hacc := State.tickStart_accCpu hne
    exact .of_no_tick 1 hrate hsamples hunfaulted (fun h => hacc ▸ add_nonneg h hdt) hacc.le
  | faulted hticks f hf ht =>
    have hrest : t.cpuRest = 0 := by rw [ht]; rfl
    have hle : s.inputs.samplesDone ≤ s.tickStart.discardSample.inputs.samplesDone := by
      rw [State.discardSample_eq, ← hsamples]
      dsimp only
      split
      · exact Nat.le_succ _
      · exact le_rfl
    have hrate' : t.rate = s.rate := by rw [ht, State.discardSample_eq]; exact hrate
    refine .of_tick hpos hrate' (ht ▸ hle) (ht ▸ cpuTicksBetween_takeFault hsamples hf) hrest.ge ?_
    rw [hrest]
    exact sub_nonneg.2 hticks.2.2
  | ran hticks u hu ht =>
    subst ht
    have hframe := tickFrame_of_cpuTick hu
    have hf : u.finishTick.fault = none := by rw [State.finishTick_fault, hframe.fault, hunfaulted]
    have hdone : u.finishTick.inputs.samplesDone = s.inputs.samplesDone + 1 := by
      rw [State.finishTick_inputs, hframe.samplesDone, hsamples]
    have hrest := (State.cpuRest_of_unfaulted hf).trans (State.finishTick_accCpu_of_cpuTick hne hu)
    refine .of_tick hpos ?_ (hdone ▸ Nat.le_succ _) ?_ (hrest ▸ sub_nonneg.2 hticks.2.2) hrest.le
    · rw [State.finishTick_rate, hframe.rate, hrate]
    · rw [cpuTicksBetween_of_unfaulted hf, hdone, Nat.add_sub_cancel_left]

/-- Every step takes the answers of one iteration. -/
theorem iterations_of_step {s t : State} (h : step s = .next t) :
    t.inputs.iterations = s.inputs.iterations.tail ∧ t.inputs.iterationsDone = s.inputs.iterationsDone + 1 := by
  obtain ⟨⟨-, -, hne⟩, hto⟩ := stepTo_of_step h
  have hstart := State.tickStart_inputs hne
  cases hto with
  | quit _ ht => rw [ht, State.endRun_eq_with hne]; exact ⟨rfl, rfl⟩
  | idle _ _ ht => rw [ht, hstart]; exact ⟨rfl, rfl⟩
  | faulted _ f _ ht =>
    rw [ht, State.takeFault_inputs, State.discardSample_eq]
    dsimp only
    split
    · exact ⟨congrArg Inputs.iterations hstart, congrArg Inputs.iterationsDone hstart⟩
    · exact ⟨congrArg Inputs.iterations hstart, congrArg Inputs.iterationsDone hstart⟩
  | ran _ u hu ht =>
    have hframe := tickFrame_of_cpuTick hu
    rw [ht, State.finishTick_inputs, hframe.iterations, hframe.iterationsDone, hstart]
    exact ⟨rfl, rfl⟩

/-! ### The account of a run -/

/-- A faulted machine takes no step. -/
theorem eq_of_run_faulted {n : Nat} {s t : State} {f : Fault} (hf : s.fault = some f)
    (h : Host.Core.run Sys2Proof.core n s = .next t) : n = 0 := by
  cases n with
  | zero => rfl
  | succ n =>
    rw [(noStepIsEnabled.1 s f hf).2 n] at h
    cases h

/-- By induction on the iterations: the account of the first step and that of the rest add up; a step that faults is the last. -/
theorem accounts_of_run (n : Nat) : ∀ {s t : State}, s.fault = none → Host.Core.run Sys2Proof.core n s = .next t →
    CpuAccount n (s.elapsedOver n) s t ∧ TimerAccount n (s.elapsedOver n) s t := by
  induction n with
  | zero =>
    intro s t hs h
    obtain rfl : s = t := Host.Outcome.next.inj h
    rw [State.elapsedOver_zero]
    exact ⟨.of_no_tick 0 rfl rfl hs id (add_zero _).ge, .of_no_beep 0 rfl id (add_zero _).ge⟩
  | succ n ih =>
    intro s t hs h
    obtain ⟨u, hstep, hrun⟩ := run_succ_next h
    obtain ⟨hit, hdone⟩ := iterations_of_step hstep
    have hcpu := cpuAccount_of_step hstep
    have htimer := timerAccount_of_step hstep
    rw [State.elapsedOver_succ hit hdone, Nat.add_comm n 1]
    cases hu : u.fault with
    | none =>
      obtain ⟨hcpu', htimer'⟩ := ih hu hrun
      exact ⟨hcpu.trans hu hcpu', htimer.trans htimer'⟩
    | some f =>
      obtain rfl := eq_of_run_faulted hu hrun
      obtain rfl : u = t := Host.Outcome.next.inj hrun
      simp only [State.elapsedOver_zero, add_zero]
      exact ⟨hcpu, htimer⟩

/-- Settles O54: with both accumulators 0 at the start, and no rest negative at the end, all that has been taken is elapsed time. -/
theorem ticksAreBoundedByElapsedTime : Obligations.TicksAreBoundedByElapsedTime := by
  intro n s t hs hcpu0 htimer0 h
  obtain ⟨hcpu, htimer⟩ := accounts_of_run n hs h
  have hrest := mul_nonneg (hcpu.rest_nonneg hcpu0.ge) (Nat.cast_nonneg (α := Rat) s.rate)
  have hrest' := htimer.rest_nonneg htimer0.ge
  have htime := hcpu.time
  have htime' := htimer.time
  rw [hcpu0, zero_add] at htime
  rw [htimer0, zero_add] at htime'
  exact ⟨hcpu.ticks, by linarith, htimer.beeps, by linarith⟩

end Sys2Proof.Machine
end

section
/-! PROOFS. Reset and load (spec/70_reset_and_hazards.md, spec/20_memory.md section 8), and the word the host places for the next
step. -/

namespace Sys2Proof.Machine

open Statement

/-! ### The memory right after reset -/

/-- Outside the font an unlisted byte is 0. -/
theorem resetByte_outside_font {a : Nat} (h : a < 0x050 ∨ 0x0A0 ≤ a) : resetByte a = 0#8 := by
  rw [resetByte, Config.fontBase]
  split
  · have hlen : fontTable.length ≤ a - 0x050 := by
      rw [show fontTable.length = 80 from rfl]
      omega
    rw [List.getElem?_eq_none hlen]
    rfl
  · rfl

/-- Settles O57: the fields of `State.reset`, the 80 font bytes by evaluation. -/
theorem resetValues : Obligations.ResetValues := by
  refine ⟨rfl, rfl, fun r => ?_, rfl, fun k => ?_, rfl, rfl, rfl, Grid.pixel_blank, rfl, rfl, rfl, rfl, by decide,
    fun a h => resetByte_outside_font h⟩
  · exact Vector.getElem_replicate r.isLt
  · exact Vector.getElem_replicate k.isLt

/-! ### The host's load (R60, R202) -/

theorem State.load_of_not_awaiting {s : State} (h : s.awaitsLoad = false) (bytes : List Byte) :
    s.load bytes = .error (if s.phase = .loaded then .alreadyLoaded else .notBeforeRun) := by
  rw [State.load, h, Bool.not_false, if_pos rfl]

theorem State.load_of_awaiting {s : State} (h : s.awaitsLoad = true) (bytes : List Byte) :
    s.load bytes =
      if bytes.length = 0 then .error .romEmpty
      else if 3584 < bytes.length then .error .romTooBig
      else .ok { s.setMem (s.mem.writeSlice 0x200 bytes) with phase := .loaded } := by
  rw [State.load, h, Bool.not_true, if_neg Bool.false_ne_true]

theorem State.awaitsLoad_iff (s : State) : s.awaitsLoad = true ↔ s.phase = .ready ∧ s.fault = none := by
  rw [State.awaitsLoad, Bool.and_eq_true, beq_iff_eq, beq_iff_eq]

theorem State.load_loaded {s : State} (h : s.phase = .loaded) (bytes : List Byte) : s.load bytes = .error .alreadyLoaded := by
  have hno : s.awaitsLoad = false := by
    rw [← Bool.not_eq_true, State.awaitsLoad_iff, h]
    nofun
  rw [State.load_of_not_awaiting hno, if_pos h]

theorem State.load_not_before_run {s : State} (h : s.phase ≠ .loaded) (hno : s.phase = .ready → s.fault ≠ none)
    (bytes : List Byte) : s.load bytes = .error .notBeforeRun := by
  have hno : s.awaitsLoad = false := by
    rw [← Bool.not_eq_true, State.awaitsLoad_iff]
    exact fun ⟨hp, hf⟩ => hno hp hf
  rw [State.load_of_not_awaiting hno, if_neg h]

/-- Settles O58: the guards of `load`, and a slice of at most 3584 bytes at 0x200. -/
theorem loadPlacesTheProgram : Obligations.LoadPlacesTheProgram := by
  intro s bytes hm
  refine ⟨fun hp hf => ?_, fun hp => State.load_loaded hp bytes, fun hp => ?_⟩
  · rw [State.load_of_awaiting (s.awaitsLoad_iff.2 ⟨hp, hf⟩)]
    refine ⟨fun h => if_pos h, fun h => ?_, fun h1 h2 => ?_⟩
    · rw [if_neg (by omega), if_pos h]
    · rw [if_neg (by omega), if_neg (by omega)]
      have hfit : 0x200 + bytes.length ≤ Config.memSize := by rw [Config.memSize]; omega
      exact ⟨_, rfl, fun k hk => Memory.read_writeSlice_inside hm.1 _ _ hk, fun a ha => Memory.read_writeSlice_outside _ ha,
        Memory.wf_writeSlice hm hfit, rfl, fun more => State.load_loaded rfl more⟩
  · rcases hp with hp | hp | ⟨hp, hf⟩
    · exact State.load_not_before_run (by rw [hp]; nofun) (by rw [hp]; nofun) bytes
    · exact State.load_not_before_run (by rw [hp]; nofun) (by rw [hp]; nofun) bytes
    · exact State.load_not_before_run (by rw [hp]; nofun) (fun _ => hf) bytes

/-! ### The word the host places (log 27) -/

theorem tableWord_toNat (w : Word) : tableWord 16 w.toNat = w := by
  rw [tableWord, Nat.mod_eq_of_lt w.isLt, BitVec.ofNat_toNat, BitVec.setWidth_eq]

theorem State.slotForWord_lt (s : State) : s.slotForWord.toNat < 4095 := by
  unfold State.slotForWord
  split
  · exact s.fetchable_iff.1 ‹_›
  · decide

section
variable (s : State) (w : Word)

theorem State.withFetchWord_rate_pos : 0 < (s.withFetchWord 16 w.toNat).rate := by
  by_cases h : s.rate = 0
  · simp [State.withFetchWord, h, Config.defaultRate]
  · simpa [State.withFetchWord, h] using Nat.pos_of_ne_zero h

theorem State.withFetchWord_phase : (s.withFetchWord 16 w.toNat).phase ≠ .ended := by
  by_cases h : s.phase = .ended <;> simp [State.withFetchWord, h]

/-- The placed iteration polls 1 and its elapsed time completes a CPU period. -/
theorem State.withFetchWord_ticks : (s.withFetchWord 16 w.toNat).Ticks := by
  refine ⟨⟨rfl, s.withFetchWord_rate_pos w, s.withFetchWord_phase w⟩, rfl, ?_⟩
  rw [← cpuPeriod_eq]
  exact missingTime_completes _ _

theorem State.withFetchWord_fetchable : (s.withFetchWord 16 w.toNat).fetchable = true :=
  (State.fetchable_iff _).2 s.slotForWord_lt

/-- The two bytes of the word are where the fetch reads. -/
theorem State.withFetchWord_fetchWord (hm : s.mem.Wf) : (s.withFetchWord 16 w.toNat).fetchWord = w := by
  have hread {k : Nat} (hk : k < 2) := Memory.read_writeSlice_inside hm.1 s.slotForWord.toNat
    [(bytesOfWord (tableWord 16 w.toNat)).1, (bytesOfWord (tableWord 16 w.toNat)).2] hk
  calc (s.withFetchWord 16 w.toNat).fetchWord
      = wordOfBytes (bytesOfWord (tableWord 16 w.toNat)).1 (bytesOfWord (tableWord 16 w.toNat)).2 :=
        congrArg₂ wordOfBytes (hread (k := 0) (by decide)) (hread (k := 1) (by decide))
    _ = w := by rw [wordOfBytes_bytesOfWord, tableWord_toNat]

end

/-- Settles O59: the placed iteration, the slot and the placed bytes. -/
theorem placedWordIsTheNextInstruction : Obligations.PlacedWordIsTheNextInstruction := by
  intro s w hm
  refine ⟨s.withFetchWord_ticks w, s.withFetchWord_fetchable w, s.withFetchWord_fetchWord w hm, ?_⟩
  rw [decodeTableWord_eq, tableWord_toNat]

end Sys2Proof.Machine
end
